-- ==== Sys2Proof/Word.lean ====
section
/-! DEFINITION. The word, byte and field types of the RISC-V-Emulator CORE
(spec 00_scope.md R7, R10; 30_encoding.md R62 to R65). -/

namespace Sys2Proof

/-- A 32-bit word: a register, the pc, an address, an instruction word (R7, R10). -/
abbrev Word := BitVec 32

/-- One byte of the flat memory (R7, R30). -/
abbrev Byte := BitVec 8

/-- A register index, 0 to 31: the 5-bit fields `rd`, `rs1`, `rs2` (R20, R23). -/
abbrev RegIdx := BitVec 5

/-- The opcode, `w[6:0]` (R13, R60). -/
abbrev Opcode := BitVec 7

/-- The secondary selector `w[14:12]` (R64, R65). -/
abbrev Funct3 := BitVec 3

/-- A raw 12-bit immediate, offset or `funct12` (R69, R70). -/
abbrev Imm12 := BitVec 12

/-- A raw 20-bit immediate or offset (R67, R68). -/
abbrev Imm20 := BitVec 20

end Sys2Proof
end

