-- ==== Sys2Proof/Machine/ArithmeticUnits.lean ====
section
/-! DEFINITION. The two's-complement sign-extend and overflow-wrap units (spec
40_arithmetic_units.md R90 to R94): pure functions on unbounded integers. -/

namespace Sys2Proof.Machine

/-- `bit_mask_prefix(n)` = `(1 << n) - 1` (R90). -/
def bitMaskPrefix (n : Nat) : Nat := (1 <<< n) - 1

/-- `truncate(value, bits)`: the residue modulo `2^bits`, also of a negative value (R92, G7). -/
def truncate (v : Int) (bits : Nat) : Nat := (v % ((2 ^ bits : Nat) : Int)).toNat

/-- `to_signed(value, bits)`, the argument reduced to `bits` bits first (R91, D17). -/
def toSigned (v : Int) (bits : Nat) : Int :=
  if 2 ^ (bits - 1) ≤ truncate v bits then (truncate v bits : Int) - ((2 ^ bits : Nat) : Int)
  else truncate v bits

/-- `trunc32(v)` as the 32-bit pattern a register or the pc stores (R10, R92). -/
def trunc32 (v : Int) : Word := BitVec.ofNat 32 (truncate v 32)

/-- `u(p)`, the unsigned reading of a pattern (R10). -/
def unsignedOf (p : Word) : Int := p.toNat

/-- `s(p)` = `to_signed(u(p), 32)`, the signed reading of a pattern (R10). -/
def signedOf (p : Word) : Int := toSigned (unsignedOf p) 32

/-- `sext_N(v)` of an `N`-bit field (R11, R91). -/
def sext {n : Nat} (field : BitVec n) : Int := toSigned field.toNat n

end Sys2Proof.Machine
end

