-- ==== Sys2Proof/Config.lean ====
section
/-! DEFINITION. The parameters of the machine (spec 00_scope.md R8), as plain data. The spec takes
them "as arguments"; a state carries them in its field `cfg`, which no step changes, so a statement
about every state is a statement about every platform (assumption log 1). -/

namespace Sys2Proof

/-- The eight opcode classes (R2, R73). -/
inductive OpClass where
  | lui
  | auipc
  | jal
  | jalr
  | branch
  | imm
  | load
  | system
  deriving DecidableEq, Repr

/-- The numeric opcode and funct3 values, `OPC_*` and `F3_*` of R8. The source gives none of them;
D2 and D3 ask a model to keep them as configuration fields. -/
structure Encoding where
  opcLui : Opcode
  opcAuipc : Opcode
  opcJal : Opcode
  opcJalr : Opcode
  opcBranch : Opcode
  opcLoad : Opcode
  opcImm : Opcode
  opcSystem : Opcode
  f3Beq : Funct3
  f3Bne : Funct3
  f3Addi : Funct3
  f3Slti : Funct3
  f3Sltiu : Funct3
  f3Lw : Funct3
  deriving DecidableEq, Repr

/-- The spec's values: the RV32I ones (R73, R75; D2, D3). PRESUMED by the spec from general
knowledge, unsafe (assumption log 5). -/
def Encoding.rv32i : Encoding where
  opcLui := 0b0110111
  opcAuipc := 0b0010111
  opcJal := 0b1101111
  opcJalr := 0b1100111
  opcBranch := 0b1100011
  opcLoad := 0b0000011
  opcImm := 0b0010011
  opcSystem := 0b1110011
  f3Beq := 0b000
  f3Bne := 0b001
  f3Addi := 0b000
  f3Slti := 0b010
  f3Sltiu := 0b011
  f3Lw := 0b010

/-- Which pc the JAL link value is computed from (`JAL_LINK_MODE`, R120, D9). -/
inductive JalLinkMode where
  | literal
  | standard
  deriving DecidableEq, Repr

/-- Whether JALR executes (`JALR_MODE`, R121, R122, D11). -/
inductive JalrMode where
  | unsupported
  | standard
  deriving DecidableEq, Repr

/-- The six words ECALL hands the system-call hook: `x10` to `x15` (R155, R156). -/
structure SyscallArgs where
  a0 : Word
  a1 : Word
  a2 : Word
  a3 : Word
  a4 : Word
  a5 : Word
  deriving DecidableEq, Repr

/-- The reason a hook puts into `Fail` (R157, R174): the reference hook's, or another hook's, named
by a number (DESIGN CHOICE, safe, assumption log 12). -/
inductive FailReason where
  | unknownSystemCall (code : Word)
  | hostReason (id : Nat)
  deriving DecidableEq, Repr

/-- The hook's answer: `Continue`, `Terminate` or `Fail(reason)` (R156). -/
inductive HookAnswer where
  | continues
  | terminate
  | fail (reason : FailReason)
  deriving DecidableEq, Repr

/-- The system-call hook, the parameter `syscall` of R8, as plain data: the reference hook of R157,
or any other pure function of the six words, written as its finite table with an answer for every
tuple the table does not list (DESIGN CHOICE, safe, assumption log 11). -/
inductive Hook where
  | reference
  | table (rows : List (SyscallArgs × HookAnswer)) (otherwise : HookAnswer)
  deriving DecidableEq, Repr

/-- The parameters of the step (R8, R34). -/
structure Config where
  memStart : Nat
  memSize : Nat
  jalLinkMode : JalLinkMode
  jalrMode : JalrMode
  enc : Encoding
  hook : Hook
  deriving DecidableEq, Repr

/-- The parameters at `State.reset`: the defaults of R8 where it states one; for the two it leaves
OPEN (D6), the memory that covers the whole 32-bit address space (DESIGN CHOICE, unsafe, assumption
log 2). -/
def Config.default : Config where
  memStart := 0
  memSize := 4294967296
  jalLinkMode := .literal
  jalrMode := .unsupported
  enc := Encoding.rv32i
  hook := .reference

end Sys2Proof
end

