-- ==== Sys2Proof/Syntax.lean ====
section
/-! DEFINITION. The instructions: one constructor per row of spec/opcode_table.json, carrying the
operand fields the decoder hands the executor (spec 30_encoding.md R72). -/

namespace Sys2Proof

/-- An instruction. Every operand field has exactly its encoding's width, so every term is
well-formed by its type (R23, R72). -/
inductive Instr where
  /-- LUI (R115): `imm` is the raw field `w[31:12]`. -/
  | lui (rd : RegIdx) (imm : Imm20)
  /-- AUIPC (R116). -/
  | auipc (rd : RegIdx) (imm : Imm20)
  /-- JAL (R120): bit `k-1` of `offset` is displacement bit `k` (R68). -/
  | jal (rd : RegIdx) (offset : Imm20)
  /-- JALR (R121, R122): `funct3` is carried and not examined (R77, D12). -/
  | jalr (rd : RegIdx) (funct3 : Funct3) (rs1 : RegIdx) (offset : Imm12)
  /-- BEQ (R130): bit `k-1` of `offset` is displacement bit `k` (R69). -/
  | beq (rs1 rs2 : RegIdx) (offset : Imm12)
  /-- BNE (R131). -/
  | bne (rs1 rs2 : RegIdx) (offset : Imm12)
  /-- ADDI (R140): `imm` is the raw field `w[31:20]` (R70). -/
  | addi (rd rs1 : RegIdx) (imm : Imm12)
  /-- SLTI (R141). -/
  | slti (rd rs1 : RegIdx) (imm : Imm12)
  /-- SLTIU (R142). -/
  | sltiu (rd rs1 : RegIdx) (imm : Imm12)
  /-- LW (R150). -/
  | lw (rd rs1 : RegIdx) (imm : Imm12)
  /-- ECALL (R155): no operand in the word, bits 19:7 ignored (R77). -/
  | ecall
  deriving DecidableEq, Repr

end Sys2Proof
end

