-- ==== Sys2Proof/Decode.lean ====
section
/-! DEFINITION. The decoder and, after it, the encoder (spec 30_encoding.md R60 to R83). The decoder
reads no state and is total: a word is an instruction or is rejected by name. It works in the
spec's two stages: the record of R72 by opcode, then the selection of R75 by funct3 or funct12. -/

namespace Sys2Proof

/-! ## Fields (R62 to R65, R68, R69) -/

/-- `w[6:0]` (R60). -/
def opcodeOf (w : Word) : Opcode := w.extractLsb' 0 7

/-- `w[11:7]`, `rd` in layouts U, J, I. -/
def rdOf (w : Word) : RegIdx := w.extractLsb' 7 5

/-- `w[14:12]`, `funct3` in layouts I, B. -/
def funct3Of (w : Word) : Funct3 := w.extractLsb' 12 3

/-- `w[19:15]`, `rs1` in layouts I, B. -/
def rs1Of (w : Word) : RegIdx := w.extractLsb' 15 5

/-- `w[24:20]`, `rs2` in layout B. -/
def rs2Of (w : Word) : RegIdx := w.extractLsb' 20 5

/-- `w[31:12]`, the U immediate, unshifted (R62, R67). -/
def immUOf (w : Word) : Imm20 := w.extractLsb' 12 20

/-- `w[31:20]`, the I immediate or `funct12`, raw (R64, R70). -/
def immIOf (w : Word) : Imm12 := w.extractLsb' 20 12

/-- The J offset: `w[30:21] | w[20] << 10 | w[19:12] << 11 | w[31] << 19` (R68). -/
def offsetJOf (w : Word) : Imm20 :=
  w.extractLsb' 31 1 ++ w.extractLsb' 12 8 ++ w.extractLsb' 20 1 ++ w.extractLsb' 21 10

/-- The B offset: `w[11:8] | w[30:25] << 4 | w[7] << 10 | w[31] << 11` (R69). -/
def offsetBOf (w : Word) : Imm12 :=
  w.extractLsb' 31 1 ++ w.extractLsb' 7 1 ++ w.extractLsb' 25 6 ++ w.extractLsb' 8 4

/-! ## The decoded record (R72, R73) -/

/-- The decoded instruction: one constructor per class, carrying the fields of R72. -/
inductive Decoded where
  | lui (rd : RegIdx) (imm : Imm20)
  | auipc (rd : RegIdx) (imm : Imm20)
  | jal (rd : RegIdx) (offset : Imm20)
  | jalr (rd : RegIdx) (funct3 : Funct3) (rs1 : RegIdx) (offset : Imm12)
  | branch (offset : Imm12) (funct3 : Funct3) (rs1 rs2 : RegIdx)
  | imm (rd : RegIdx) (funct3 : Funct3) (rs1 : RegIdx) (imm : Imm12)
  | load (rd : RegIdx) (funct3 : Funct3) (rs1 : RegIdx) (imm : Imm12)
  | system (funct12 : Imm12)
  deriving DecidableEq, Repr

/-- Why a word is no instruction: an opcode outside the eight (R74), or a funct value its class does
not implement (R132, R143, R151, R159). -/
inductive Reject where
  | unimplementedOpcode (opcode : Opcode)
  | unimplementedFunct (cls : OpClass) (value : Nat)
  deriving DecidableEq, Repr

/-- The opcode value of a class (R73). -/
def Encoding.opcode (e : Encoding) : OpClass → Opcode
  | .lui => e.opcLui
  | .auipc => e.opcAuipc
  | .jal => e.opcJal
  | .jalr => e.opcJalr
  | .branch => e.opcBranch
  | .load => e.opcLoad
  | .imm => e.opcImm
  | .system => e.opcSystem

/-- The class whose opcode value equals `op` (R73). -/
def classOf (e : Encoding) (op : Opcode) : Option OpClass :=
  if op = e.opcLui then some .lui
  else if op = e.opcAuipc then some .auipc
  else if op = e.opcJal then some .jal
  else if op = e.opcJalr then some .jalr
  else if op = e.opcBranch then some .branch
  else if op = e.opcLoad then some .load
  else if op = e.opcImm then some .imm
  else if op = e.opcSystem then some .system
  else none

/-- The record of a class, from the class's layout (R62 to R65, R72). -/
def recordOf (w : Word) : OpClass → Decoded
  | .lui => .lui (rdOf w) (immUOf w)
  | .auipc => .auipc (rdOf w) (immUOf w)
  | .jal => .jal (rdOf w) (offsetJOf w)
  | .jalr => .jalr (rdOf w) (funct3Of w) (rs1Of w) (immIOf w)
  | .branch => .branch (offsetBOf w) (funct3Of w) (rs1Of w) (rs2Of w)
  | .load => .load (rdOf w) (funct3Of w) (rs1Of w) (immIOf w)
  | .imm => .imm (rdOf w) (funct3Of w) (rs1Of w) (immIOf w)
  | .system => .system (immIOf w)

/-- `decode(w)` of R72 to R74: the record, or the "unimplemented opcode" error. -/
def decodeRecord (e : Encoding) (w : Word) : Except Reject Decoded :=
  match classOf e (opcodeOf w) with
  | some c => .ok (recordOf w c)
  | none => .error (.unimplementedOpcode (opcodeOf w))

/-- Selection within a class by funct3 or funct12 (R75, R104). JALR's funct3 is not examined (D12,
assumption log 8). -/
def select (e : Encoding) : Decoded → Except Reject Instr
  | .lui rd imm => .ok (.lui rd imm)
  | .auipc rd imm => .ok (.auipc rd imm)
  | .jal rd off => .ok (.jal rd off)
  | .jalr rd f3 rs1 off => .ok (.jalr rd f3 rs1 off)
  | .branch off f3 rs1 rs2 =>
    if f3 = e.f3Beq then .ok (.beq rs1 rs2 off)
    else if f3 = e.f3Bne then .ok (.bne rs1 rs2 off)
    else .error (.unimplementedFunct .branch f3.toNat)
  | .imm rd f3 rs1 imm =>
    if f3 = e.f3Addi then .ok (.addi rd rs1 imm)
    else if f3 = e.f3Slti then .ok (.slti rd rs1 imm)
    else if f3 = e.f3Sltiu then .ok (.sltiu rd rs1 imm)
    else .error (.unimplementedFunct .imm f3.toNat)
  | .load rd f3 rs1 imm =>
    if f3 = e.f3Lw then .ok (.lw rd rs1 imm)
    else .error (.unimplementedFunct .load f3.toNat)
  | .system f12 =>
    if f12 = 0 then .ok .ecall
    else .error (.unimplementedFunct .system f12.toNat)

/-- The instruction a word stands for, or why it stands for none. -/
def decode (e : Encoding) (w : Word) : Except Reject Instr :=
  match decodeRecord e w with
  | .ok d => select e d
  | .error r => .error r

/-! ## Bytes (R41, R47) -/

/-- Four bytes as a word, least significant first (R41). -/
def wordOfBytes (b0 b1 b2 b3 : Byte) : Word := b3 ++ b2 ++ b1 ++ b0

/-- Byte `i` of a word: byte 0 is bits 7:0 (R42). -/
def byteOf (w : Word) (i : Nat) : Byte := w.extractLsb' (8 * i) 8

/-- The decoder on the four bytes at the pc (R60). -/
def decodeBytes (e : Encoding) (b0 b1 b2 b3 : Byte) : Except Reject Instr :=
  decode e (wordOfBytes b0 b1 b2 b3)

/-- What the decoder reads from an opcode-table word of `nbits` bits, laid out as the hardware
stores it, under the spec's opcode and funct3 values. -/
def decodeTableWord (nbits w : Nat) : Option Instr :=
  let word : Word := BitVec.ofNat 32 (w % 2 ^ nbits)
  match decodeBytes Encoding.rv32i (byteOf word 0) (byteOf word 1) (byteOf word 2) (byteOf word 3) with
  | .ok i => some i
  | .error _ => none

/-! ## The encoder (R83) -/

/-- Layout U (R62). -/
def encodeU (op : Opcode) (rd : RegIdx) (imm : Imm20) : Word := imm ++ rd ++ op

/-- Layout I (R64). -/
def encodeI (op : Opcode) (rd : RegIdx) (f3 : Funct3) (rs1 : RegIdx) (imm : Imm12) : Word :=
  imm ++ rs1 ++ f3 ++ rd ++ op

/-- Layout J (R63): `offset` bit `k-1` is `imm[k]`. -/
def encodeJ (op : Opcode) (rd : RegIdx) (offset : Imm20) : Word :=
  offset.extractLsb' 19 1 ++ offset.extractLsb' 0 10 ++ offset.extractLsb' 10 1 ++
    offset.extractLsb' 11 8 ++ rd ++ op

/-- Layout B (R65): `offset` bit `k-1` is `imm[k]`. -/
def encodeB (op : Opcode) (f3 : Funct3) (rs1 rs2 : RegIdx) (offset : Imm12) : Word :=
  offset.extractLsb' 11 1 ++ offset.extractLsb' 4 6 ++ rs2 ++ rs1 ++ f3 ++
    offset.extractLsb' 0 4 ++ offset.extractLsb' 10 1 ++ op

/-- The word of an instruction (R83). ECALL is written with its ignored bits 19:7 zero. -/
def encode (e : Encoding) : Instr → Word
  | .lui rd imm => encodeU e.opcLui rd imm
  | .auipc rd imm => encodeU e.opcAuipc rd imm
  | .jal rd off => encodeJ e.opcJal rd off
  | .jalr rd f3 rs1 off => encodeI e.opcJalr rd f3 rs1 off
  | .beq rs1 rs2 off => encodeB e.opcBranch e.f3Beq rs1 rs2 off
  | .bne rs1 rs2 off => encodeB e.opcBranch e.f3Bne rs1 rs2 off
  | .addi rd rs1 imm => encodeI e.opcImm rd e.f3Addi rs1 imm
  | .slti rd rs1 imm => encodeI e.opcImm rd e.f3Slti rs1 imm
  | .sltiu rd rs1 imm => encodeI e.opcImm rd e.f3Sltiu rs1 imm
  | .lw rd rs1 imm => encodeI e.opcLoad rd e.f3Lw rs1 imm
  | .ecall => encodeI e.opcSystem 0 0 0 0

end Sys2Proof
end

