-- ==== Sys2Proof/Machine/State.lean ====
section
/-! DEFINITION. The state of the machine, the reasons a step stops, and reset (spec 10_state.md R20
to R34, 60_exceptions.md R170 to R179, 70_reset_and_hazards.md R200). -/

namespace Sys2Proof.Machine

/-- The fatal errors (R170, R179). None of them carries a state: the state is the one before the
cycle (R176). -/
inductive Fault where
  /-- An opcode outside the eight classes, with that opcode (R171). Raised by the decode stage of
  `cycle`. Safe: the spec's own end of the run. -/
  | decodeError (opcode : Opcode)
  /-- A recognised class whose funct3 or funct12 has no implementation, with the class and the
  failing value; JALR in unsupported mode, with its opcode (R172). Raised by the decode stage of
  `cycle` and by `execJalr`. Safe: the spec's own end of the run. -/
  | executeError (cls : OpClass) (value : Nat)
  /-- The four bytes at `address` are not all inside the memory (R173). Raised by `memRead` (fetch,
  LW) and by the host's `memWrite`. Safe: the spec's own end of the run. -/
  | memoryBoundsError (address : Word)
  /-- The reference hook's `Fail`: an unknown call code (R174). Raised by `execEcall`. Safe: the
  spec's own end of the run. -/
  | unknownSystemCall (code : Word)
  /-- Another hook's reason in `Fail`, passed through unchanged (R174). Raised by `execEcall`. Safe:
  the spec's own end of the run. -/
  | hookFailure (id : Nat)
  deriving DecidableEq, Repr

/-- Reasons the model gives a step no meaning. -/
inductive Refusal where
  /-- An instruction without a meaning yet, by its mnemonic. Raised by nothing: every arm of `exec`
  has its meaning. Safe. -/
  | notModelled (mnemonic : String)
  /-- A cycle asked for after the run ended normally: no step exists (R109, D16). Raised by `cycle`.
  Safe (assumption log 10). -/
  | runTerminated
  deriving DecidableEq, Repr

/-- The flat memory, sparse: (absolute address, byte), addresses strictly rising, no entry equal to
what an unlisted address reads as (R30, R45). -/
abbrev Memory := List Host.Cell

/-- The state tuple of R34, with the parameters of the step beside it in `cfg`. -/
structure State where
  /-- `x[0]` to `x[31]` (R20). -/
  regs : Vector Word 32
  /-- The program counter (R24). -/
  pc : Word
  /-- The bytes of the flat memory that differ from zero (R30, R33). -/
  mem : Memory
  /-- The host's termination flag (R28). -/
  terminated : Bool
  /-- The parameters of the step (R8, R34): no step changes them (assumption log 1). -/
  cfg : Config
  deriving DecidableEq, Repr

/-- What an instruction, a cycle or a host access answers. -/
abbrev Result := Host.Outcome State Fault Refusal

/-- Reset as the creation of a processor instance from the parameters of R200: `x[0]` is 0 whatever
`REG_RESET` holds, the pc is `RESET_PC`, the memory `MEM_INIT`, `terminated` false (R33). -/
def State.resetWith (cfg : Config) (regReset : Vector Word 32) (resetPc : Word) (memInit : Memory) :
    State where
  regs := regReset.set 0 0
  pc := resetPc
  mem := memInit
  terminated := false
  cfg := cfg

/-- The machine right after reset, with no program loaded: `REG_RESET` all zero (R33, D4, assumption
log 4), the parameters of `Config.default` (assumption logs 2, 5, 6, 7), `RESET_PC` 0 (OPEN, D5;
DESIGN CHOICE, unsafe, assumption log 3). -/
def State.reset : State := State.resetWith Config.default (Vector.replicate 32 0) 0 []

end Sys2Proof.Machine
end

