-- ==== Sys2Proof/Machine/Memory.lean ====
section
/-! DEFINITION. The reference flat memory (spec 20_memory.md R41 to R48): bytes, little-endian
words and the bounds check, over the sparse list of State. -/

namespace Sys2Proof.Machine

/-- What a byte no entry lists reads as: unloaded bytes are 0 (10_state.md R33; DEDUCED by the spec,
unsafe, assumption log 9). -/
def unlistedByte : Byte := 0

/-- The byte at an absolute address. -/
def Memory.readByte : Memory → Nat → Byte
  | [], _ => unlistedByte
  | cell :: rest, a => if a = cell.1 then cell.2 else Memory.readByte rest a

/-- An entry put in front, unless it says what an unlisted address reads as. -/
def Memory.consByte (a : Nat) (v : Byte) (rest : Memory) : Memory :=
  if v = unlistedByte then rest else (a, v) :: rest

/-- Store one byte, keeping the canonical form. -/
def Memory.writeByte : Memory → Nat → Byte → Memory
  | [], a, v => Memory.consByte a v []
  | cell :: rest, a, v =>
    if a < cell.1 then Memory.consByte a v (cell :: rest)
    else if a = cell.1 then Memory.consByte a v rest
    else cell :: Memory.writeByte rest a v

/-- The canonical form: addresses strictly rising, no entry equal to the unlisted byte. -/
abbrev Memory.wf (m : Memory) : Prop :=
  m.Pairwise (fun c d => c.1 < d.1) ∧ ∀ c ∈ m, c.2 ≠ unlistedByte

/-- Every listed byte lies inside `[start, start + size)` (R30, R51). -/
abbrev Memory.within (m : Memory) (start size : Nat) : Prop :=
  ∀ c ∈ m, start ≤ c.1 ∧ c.1 < start + size

/-- Four consecutive bytes, least significant first (R41). -/
def Memory.readWord (m : Memory) (a : Nat) : Word :=
  wordOfBytes (m.readByte a) (m.readByte (a + 1)) (m.readByte (a + 2)) (m.readByte (a + 3))

/-- Store four consecutive bytes, least significant first (R42). -/
def Memory.writeWord (m : Memory) (a : Nat) (v : Word) : Memory :=
  (((m.writeByte a (byteOf v 0)).writeByte (a + 1) (byteOf v 1)).writeByte (a + 2)
    (byteOf v 2)).writeByte (a + 3) (byteOf v 3)

/-- The bounds check of `read_word` and `write_word`, in unbounded integers: all four bytes are
inside the memory (R41, R44). -/
def inBounds (c : Config) (address : Word) : Bool :=
  let o : Int := (address.toNat : Int) - c.memStart
  !(decide (o < 0) || decide (o + 3 ≥ c.memSize))

/-- `read_word(address)`, `MemRead(address, 4)` (R41). A read changes no state (R49). -/
def memRead (s : State) (address : Word) : Except Fault Word :=
  if inBounds s.cfg address then .ok (s.mem.readWord address.toNat)
  else .error (.memoryBoundsError address)

/-- `write_word(value, address)`, `MemWrite(address, 4, value)` (R42). No instruction uses it
(R50): it is the loader's and the host's. -/
def memWrite (s : State) (value address : Word) : Except Fault State :=
  if inBounds s.cfg address then
    .ok { s with mem := s.mem.writeWord address.toNat value }
  else .error (.memoryBoundsError address)

end Sys2Proof.Machine
end

