-- ==== Sys2Proof/Machine/Ops.lean ====
section
/-! DEFINITION. The named operations every meaning is written over: registers, the pc, the x0
enforcer, ending a cycle with a fatal error (spec 00_scope.md R11, 41_cycle.md R106, R107,
60_exceptions.md R176, R177). -/

namespace Sys2Proof.Machine

/-- `x[i]`: the pattern held (R11). -/
def State.readReg (s : State) (i : RegIdx) : Word := s.regs[i.toNat]

/-- `x[i] <- v`. A write to `x0` is discarded, the form R107 allows beside the enforcer: "a model may
equally implement the register write as if rd != 0" (R21; assumption log 14). -/
def State.writeReg (s : State) (i : RegIdx) (v : Word) : State :=
  if i = 0 then s else { s with regs := s.regs.set i.toNat v }

/-- `pc <- t`. -/
def State.setPc (s : State) (t : Word) : State := { s with pc := t }

/-- "advance PC by 4": `pc <- trunc32(pc + 4)` (R106). -/
def State.advancePc (s : State) : State := s.setPc (trunc32 (unsignedOf s.pc + 4))

/-- The x0 enforcer: `x[0] <- 0` (R107). -/
def State.enforceX0 (s : State) : State := { s with regs := s.regs.set 0 0 }

/-- The host sets its termination flag (R108, R158). -/
def State.setTerminated (s : State) : State := { s with terminated := true }

/-- `raise E(info)`: the cycle ends at once with the fatal error. The one way an instruction stops:
nothing is saved, no mode changes, no handler is entered, and there is no return (R176, R177,
R178). -/
def raise (e : Fault) : Result := .fault e

/-- The end of an instruction rule that writes `x[rd]` and advances the pc. The value is computed by
the caller from the state before any write (R12). -/
def writeAndAdvance (s : State) (rd : RegIdx) (v : Word) : Result :=
  .next (s.writeReg rd v).advancePc

end Sys2Proof.Machine
end

