-- ==== Sys2Proof/Machine/Operands.lean ====
section
/-! DEFINITION. The operand forms: immediates, displacements, the load address, the system-call
parameters (spec 30_encoding.md R67 to R70, 40_arithmetic_units.md R95). -/

namespace Sys2Proof.Machine

/-- `sext_32(imm << 12)` (R67, R115, R116). -/
def upperImmediate (imm : Imm20) : Int := toSigned ((imm.toNat <<< 12 : Nat) : Int) 32

/-- `sext_12(imm)` (R70). -/
def immediateI (imm : Imm12) : Int := sext imm

/-- `sext_20(offset) * 2`, the JAL displacement in bytes (R68). -/
def displacementJ (offset : Imm20) : Int := sext offset * 2

/-- `sext_12(offset) * 2`, the branch displacement in bytes (R69). -/
def displacementB (offset : Imm12) : Int := sext offset * 2

/-- The JAL target, `trunc32(pc + sext_20(offset) * 2)` (R120). -/
def State.jumpTarget (s : State) (offset : Imm20) : Word :=
  trunc32 (unsignedOf s.pc + displacementJ offset)

/-- The taken-branch target, `trunc32(pc + sext_12(offset) * 2)` (R130, R131). -/
def State.branchTarget (s : State) (offset : Imm12) : Word :=
  trunc32 (unsignedOf s.pc + displacementB offset)

/-- Base plus displacement, `trunc32(u(x[rs1]) + sext_12(imm))`: the ADDI sum, the LW address, the
JALR sum (R122, R140, R150). -/
def State.basePlusImm (s : State) (rs1 : RegIdx) (imm : Imm12) : Word :=
  trunc32 (unsignedOf (s.readReg rs1) + immediateI imm)

/-- `t` with bit 0 cleared, `t & 0xFFFFFFFE` (R122). -/
def clearBit0 (t : Word) : Word := t &&& 0xFFFFFFFE

/-- A link value, `trunc32(p + 4)` (R120, R122, D10, assumption log 17). -/
def linkAfter (p : Word) : Word := trunc32 (unsignedOf p + 4)

/-- The parameters of ECALL: `x10` to `x15`, as they stand before it (R155, R156). -/
def State.syscallArgs (s : State) : SyscallArgs where
  a0 := s.readReg 10
  a1 := s.readReg 11
  a2 := s.readReg 12
  a3 := s.readReg 13
  a4 := s.readReg 14
  a5 := s.readReg 15

end Sys2Proof.Machine
end

