-- ==== Sys2Proof/Machine/Flags.lean ====
section
/-! DEFINITION. The comparisons. The hardware has no flags: a comparison leaves no state but the pc
or `x[rd]` (spec 10_state.md R26, 40_arithmetic_units.md R94 (d), (e)). -/

namespace Sys2Proof.Machine

/-- Equality of two 32-bit patterns (BEQ, BNE; R130, D7). -/
def equalPatterns (a b : Word) : Bool := decide (a = b)

/-- Signed less-than of `s(x)` against `sext_12(imm)` (SLTI; R141). -/
def lessSigned (x : Word) (imm : Imm12) : Bool := decide (signedOf x < immediateI imm)

/-- Unsigned less-than of `u(x)` against `trunc32(sext_12(imm))` (SLTIU; R142). -/
def lessUnsigned (x : Word) (imm : Imm12) : Bool :=
  decide (unsignedOf x < unsignedOf (trunc32 (immediateI imm)))

/-- A comparison as a register value: the pattern 1 or 0 (R141, R142). -/
def boolWord (b : Bool) : Word := if b then 1 else 0

end Sys2Proof.Machine
end

