-- ==== Sys2Proof/Machine/Branches.lean ====
section
/-! DEFINITION. BEQ and BNE (spec 44_branches.md R130, R131). -/

namespace Sys2Proof.Machine

/-- The end of a branch: the target if taken, else the advance. The target is not checked. -/
def branchTo (s : State) (taken : Bool) (offset : Imm12) : Result :=
  if taken then .next (s.setPc (s.branchTarget offset)) else .next s.advancePc

/-- R130: taken when the two patterns are equal. -/
def execBeq (rs1 rs2 : RegIdx) (offset : Imm12) (s : State) : Result :=
  branchTo s (equalPatterns (s.readReg rs1) (s.readReg rs2)) offset

/-- R131: taken when the two patterns differ. -/
def execBne (rs1 rs2 : RegIdx) (offset : Imm12) (s : State) : Result :=
  branchTo s (!equalPatterns (s.readReg rs1) (s.readReg rs2)) offset

end Sys2Proof.Machine
end

