-- ==== Sys2Proof/Machine/Jumps.lean ====
section
/-! DEFINITION. JAL and JALR (spec 43_jumps.md R120 to R122). -/

namespace Sys2Proof.Machine

/-- The JAL link value: from the already-updated pc in `literal` mode, from the old pc in `standard`
mode (R120, D9, assumption log 6). -/
def jalLink (mode : JalLinkMode) (oldPc target : Word) : Word :=
  match mode with
  | .literal => linkAfter target
  | .standard => linkAfter oldPc

/-- R120. The target is not checked; there is no separate advance. -/
def execJal (rd : RegIdx) (offset : Imm20) (s : State) : Result :=
  let target := s.jumpTarget offset
  .next ((s.setPc target).writeReg rd (jalLink s.cfg.jalLinkMode s.pc target))

/-- R121 and R122, selected by `JALR_MODE`. `funct3` is not examined in either mode (R77, D12,
assumption log 8). The base is read before the link is written. -/
def execJalr (rd : RegIdx) (_funct3 : Funct3) (rs1 : RegIdx) (offset : Imm12) (s : State) : Result :=
  match s.cfg.jalrMode with
  | .unsupported => raise (.executeError .jalr s.cfg.enc.opcJalr.toNat)
  | .standard => .next ((s.setPc (clearBit0 (s.basePlusImm rs1 offset))).writeReg rd (linkAfter s.pc))

end Sys2Proof.Machine
end

