-- ==== Sys2Proof/Machine/Load.lean ====
section
/-! DEFINITION. LW (spec 46_load.md R150). -/

namespace Sys2Proof.Machine

/-- R150: the address wraps before the bounds check; a bounds error is raised before any write; the
read happens also when `rd` is 0. -/
def execLw (rd rs1 : RegIdx) (imm : Imm12) (s : State) : Result :=
  match memRead s (s.basePlusImm rs1 imm) with
  | .ok v => writeAndAdvance s rd v
  | .error e => raise e

end Sys2Proof.Machine
end

