-- ==== Sys2Proof/Machine/OpImm.lean ====
section
/-! DEFINITION. ADDI, SLTI, SLTIU (spec 45_op_imm.md R140 to R142). `x[rs1]` is read before `x[rd]`
is written. -/

namespace Sys2Proof.Machine

/-- R140: `x[rd] <- trunc32(u(x[rs1]) + sext_12(imm))`. -/
def execAddi (rd rs1 : RegIdx) (imm : Imm12) (s : State) : Result :=
  writeAndAdvance s rd (s.basePlusImm rs1 imm)

/-- R141: 1 if `s(x[rs1]) < sext_12(imm)`, else 0. -/
def execSlti (rd rs1 : RegIdx) (imm : Imm12) (s : State) : Result :=
  writeAndAdvance s rd (boolWord (lessSigned (s.readReg rs1) imm))

/-- R142: 1 if `u(x[rs1]) < trunc32(sext_12(imm))`, else 0. -/
def execSltiu (rd rs1 : RegIdx) (imm : Imm12) (s : State) : Result :=
  writeAndAdvance s rd (boolWord (lessUnsigned (s.readReg rs1) imm))

end Sys2Proof.Machine
end

