-- ==== Sys2Proof/Machine/System.lean ====
section
/-! DEFINITION. ECALL and the system-call hook (spec 47_system.md R155 to R158). -/

namespace Sys2Proof.Machine

/-- The reference hook: call code 1 terminates, any other is unknown; `a1` to `a5` are unused
(R157). -/
def referenceHook (args : SyscallArgs) : HookAnswer :=
  if args.a0 = 1 then .terminate else .fail (.unknownSystemCall args.a0)

/-- The answer a table gives: its first row for these parameters, else the remaining answer. -/
def tableAnswer (rows : List (SyscallArgs × HookAnswer)) (otherwise : HookAnswer)
    (args : SyscallArgs) : HookAnswer :=
  match rows with
  | [] => otherwise
  | row :: rest => if args = row.1 then row.2 else tableAnswer rest otherwise args

/-- `Syscall(a0..a5)`: the hook's answer (R11, R156). -/
def hookAnswer : Hook → SyscallArgs → HookAnswer
  | .reference, args => referenceHook args
  | .table rows otherwise, args => tableAnswer rows otherwise args

/-- The fatal error a reason in `Fail` becomes, passed through unchanged (R174). -/
def failFault : FailReason → Fault
  | .unknownSystemCall code => .unknownSystemCall code
  | .hostReason id => .hookFailure id

/-- R155, R158: call the hook once with `x10` to `x15`, then act on its answer; on `Fail` the pc is
not advanced (D14, assumption log 13). -/
def execEcall (s : State) : Result :=
  match hookAnswer s.cfg.hook s.syscallArgs with
  | .continues => .next s.advancePc
  | .terminate => .next s.setTerminated.advancePc
  | .fail reason => raise (failFault reason)

end Sys2Proof.Machine
end

