-- ==== Sys2Proof/Machine/UpperImmediate.lean ====
section
/-! DEFINITION. LUI and AUIPC (spec 42_upper_immediate.md R115, R116). -/

namespace Sys2Proof.Machine

/-- R115: `x[rd] <- sext_32(imm << 12); pc <- trunc32(pc + 4)`. -/
def execLui (rd : RegIdx) (imm : Imm20) (s : State) : Result :=
  writeAndAdvance s rd (trunc32 (upperImmediate imm))

/-- R116: `x[rd] <- trunc32(pc + sext_32(imm << 12))`, the pc of this instruction; then the
advance. -/
def execAuipc (rd : RegIdx) (imm : Imm20) (s : State) : Result :=
  writeAndAdvance s rd (trunc32 (unsignedOf s.pc + upperImmediate imm))

end Sys2Proof.Machine
end

