-- ==== Sys2Proof/Machine/Cycle.lean ====
section
/-! DEFINITION. The fetch-decode-execute cycle (spec 41_cycle.md R100 to R109), a program's load at
the pc, and the driver's loop (R110, 70_reset_and_hazards.md R209). -/

namespace Sys2Proof.Machine

/-- What one invocation of the cycle primitive returns (R100, R179), and `noStep` for an invocation
the spec gives no meaning (R109, D16). -/
inductive CycleResult where
  | retired (s : State)
  | skipped (s : State)
  | fatal (e : Fault)
  | noStep (r : Refusal)
  deriving Repr

/-- The fatal error of a word that is no instruction (R171, R172, D13, assumption log 18). -/
def rejectFault : Reject → Fault
  | .unimplementedOpcode opcode => .decodeError opcode
  | .unimplementedFunct cls value => .executeError cls value

/-- Fetch: `MemRead(pc, 4)` (R101). -/
def fetch (s : State) : Except Fault Word := memRead s s.pc

/-- Execute, then the x0 enforcer (R104, R105, R107). -/
def executeAndEnforce (i : Instr) (s : State) : CycleResult :=
  match exec i s with
  | .next t => .retired t.enforceX0
  | .fault e => .fatal e
  | .refused r => .noStep r

/-- The cycle from the fetched word on: the zero-word skip (R102, D8, assumption log 23), then decode
and execute (R103, R104). The funct test precedes any register read or memory access (R175). -/
def cycleOn (w : Word) (s : State) : CycleResult :=
  if w = 0 then .skipped s.advancePc
  else
    match decode s.cfg.enc w with
    | .ok i => executeAndEnforce i s
    | .error r => .fatal (rejectFault r)

/-- The whole cycle, in the order of R105. No cycle follows the end of a run (R109, D16, assumption
log 10). -/
def cycle (s : State) : CycleResult :=
  if s.terminated then .noStep .runTerminated
  else
    match fetch s with
    | .ok w => cycleOn w s
    | .error e => .fatal e

/-- A cycle's result as the host's outcome of a step: `Retired` and `Skipped` both go on. -/
def CycleResult.outcome : CycleResult → Result
  | .retired s => .next s
  | .skipped s => .next s
  | .fatal e => .fault e
  | .noStep r => .refused r

/-- The loader's work for one word at the pc (R204, R206): the memory is made to hold it there.
`terminated` is cleared as for a new run; where the memory has no room at the pc it becomes the whole
address space, and a pc whose four bytes would pass the top of it becomes 0 (assumption log 20). -/
def loadAtPc (s : State) (word : Word) : State :=
  let run := { s with terminated := false }
  if inBounds s.cfg s.pc then { run with mem := s.mem.writeWord s.pc.toNat word }
  else
    let pc : Word := if s.pc.toNat + 3 < 4294967296 then s.pc else 0
    { run with
      pc := pc
      mem := s.mem.writeWord pc.toNat word
      cfg := { s.cfg with memStart := 0, memSize := 4294967296 } }

/-- How a run stands: ended normally, ended by a fatal error in the unchanged state before that
cycle, or not ended yet (R209); `stuck` is a refusal, which a run from a state that is not terminated
never meets. -/
inductive RunEnd where
  | normal (s : State)
  | abnormal (e : Fault) (s : State)
  | stuck (r : Refusal) (s : State)
  | running (s : State)
  deriving Repr

/-- The driver's loop for at most `n` cycles: `while not terminated: outcome = cycle(); if outcome is
Fatal: stop` (R110). -/
def drive : Nat → State → RunEnd
  | 0, s => if s.terminated then .normal s else .running s
  | n + 1, s =>
    if s.terminated then .normal s
    else
      match cycle s with
      | .retired t => drive n t
      | .skipped t => drive n t
      | .fatal e => .abnormal e s
      | .noStep r => .stuck r s

end Sys2Proof.Machine
end

