-- ==== Sys2Proof/Machine/Step.lean ====
section
/-! DEFINITION. One step of the machine: one invocation of the cycle primitive (spec 41_cycle.md
R100). -/

namespace Sys2Proof.Machine

/-- One cycle (R105), `Retired` and `Skipped` alike answering the next state. -/
def step (s : State) : Host.Outcome State Fault Refusal := (cycle s).outcome

/-- `s` with an instruction of the opcode table stored where the next cycle fetches (the load of a
program, assumption log 20). Instructions have 32 bits; bits from `nbits` up are zero. -/
def State.withFetchWord (s : State) (nbits w : Nat) : State :=
  loadAtPc s (BitVec.ofNat 32 (w % 2 ^ nbits))

end Sys2Proof.Machine
end

