-- ==== Sys2Proof/Machine/HostInterface.lean ====
section
/-! DEFINITION. What the host may do between cycles (spec 70_reset_and_hazards.md R208) and the
image conventions of the spec's programs (R206, R207, D25). None of it happens inside a step
(assumption log 21). -/

namespace Sys2Proof.Machine

/-- The host's `read_word` (R41, R208): no state changes. -/
def hostReadWord (s : State) (address : Word) : Except Fault Word := memRead s address

/-- The host's `write_word` (R42, R56, R208): the next fetch or load sees the new bytes. -/
def hostWriteWord (s : State) (value address : Word) : Result :=
  match memWrite s value address with
  | .ok t => .next t
  | .error e => .fault e

/-- The observation interface: all 32 registers and the pc (00_scope.md R6). -/
def observe (s : State) : Vector Word 32 × Word := (s.regs, s.pc)

/-- `MEM_INIT` of an image: each `(address, value)` stored as a little-endian word at its address,
every other byte zero (10_state.md R33). -/
def imageMemory (image : List (Word × Word)) : Memory :=
  image.foldl (fun m p => m.writeWord p.1.toNat p.2) []

/-- The lowest address of an image, starting from `a` (D25). -/
def lowestAddress (a : Nat) (image : List (Word × Word)) : Nat :=
  image.foldl (fun m p => min m p.1.toNat) a

/-- The highest address of an image, starting from `a` (D25). -/
def highestAddress (a : Nat) (image : List (Word × Word)) : Nat :=
  image.foldl (fun m p => max m p.1.toNat) a

/-- Reset for an image under the conventions of R207 and D25: `MEM_START` the lowest address,
`MEM_SIZE` the span plus 16, `RESET_PC` = `MEM_START`. An empty image gives `State.resetWith`'s own
parameters (assumption log 25). -/
def bootImage (cfg : Config) (image : List (Word × Word)) : State :=
  match image with
  | [] => State.resetWith cfg (Vector.replicate 32 0) 0 []
  | (first, _) :: _ =>
    let low := lowestAddress first.toNat image
    State.resetWith { cfg with memStart := low, memSize := highestAddress first.toNat image - low + 16 }
      (Vector.replicate 32 0) (BitVec.ofNat 32 low) (imageMemory image)

end Sys2Proof.Machine
end

