-- ==== Sys2Proof/Syntax/Assembly.lean ====
section
/-! DEFINITION. Instructions as a programmer writes them: register numbers and byte displacements
as numbers (spec 30_encoding.md R81), the pseudo-instructions of R82, and the instruction each
stands for. PRESUMED by the spec from general knowledge (D24, assumption log 29); no rule of the
machine depends on it. The range and parity checks are in WellFormed.lean. -/

namespace Sys2Proof

/-- One assembler line (R81) or pseudo-instruction (R82). Displacements and immediates are the
numbers written in the line: `imm20` the raw field, `disp` a byte displacement, `imm12` signed. -/
inductive Asm where
  | lui (rd imm20 : Nat)
  | auipc (rd imm20 : Nat)
  | jal (rd : Nat) (disp : Int)
  | jalr (rd : Nat) (imm12 : Int) (rs1 : Nat)
  | beq (rs1 rs2 : Nat) (disp : Int)
  | bne (rs1 rs2 : Nat) (disp : Int)
  | addi (rd rs1 : Nat) (imm12 : Int)
  | slti (rd rs1 : Nat) (imm12 : Int)
  | sltiu (rd rs1 : Nat) (imm12 : Int)
  | lw (rd : Nat) (imm12 : Int) (rs1 : Nat)
  | ecall
  | nop
  | li (rd : Nat) (imm12 : Int)
  | mv (rd rs : Nat)
  | j (disp : Int)
  | beqz (rs : Nat) (disp : Int)
  | bnez (rs : Nat) (disp : Int)
  | seqz (rd rs : Nat)
  deriving DecidableEq, Repr

/-- The instruction a line stands for (R81, R82). A displacement is stored halved (R68, R69); JALR
is written with `funct3 = 0` (R83). Meant for lines that pass `Asm.wf`. -/
def Asm.instr : Asm → Instr
  | .lui rd imm => .lui (BitVec.ofNat 5 rd) (BitVec.ofNat 20 imm)
  | .auipc rd imm => .auipc (BitVec.ofNat 5 rd) (BitVec.ofNat 20 imm)
  | .jal rd disp => .jal (BitVec.ofNat 5 rd) (BitVec.ofInt 20 (disp / 2))
  | .jalr rd imm rs1 => .jalr (BitVec.ofNat 5 rd) 0 (BitVec.ofNat 5 rs1) (BitVec.ofInt 12 imm)
  | .beq rs1 rs2 disp => .beq (BitVec.ofNat 5 rs1) (BitVec.ofNat 5 rs2) (BitVec.ofInt 12 (disp / 2))
  | .bne rs1 rs2 disp => .bne (BitVec.ofNat 5 rs1) (BitVec.ofNat 5 rs2) (BitVec.ofInt 12 (disp / 2))
  | .addi rd rs1 imm => .addi (BitVec.ofNat 5 rd) (BitVec.ofNat 5 rs1) (BitVec.ofInt 12 imm)
  | .slti rd rs1 imm => .slti (BitVec.ofNat 5 rd) (BitVec.ofNat 5 rs1) (BitVec.ofInt 12 imm)
  | .sltiu rd rs1 imm => .sltiu (BitVec.ofNat 5 rd) (BitVec.ofNat 5 rs1) (BitVec.ofInt 12 imm)
  | .lw rd imm rs1 => .lw (BitVec.ofNat 5 rd) (BitVec.ofNat 5 rs1) (BitVec.ofInt 12 imm)
  | .ecall => .ecall
  | .nop => .addi 0 0 0
  | .li rd imm => .addi (BitVec.ofNat 5 rd) 0 (BitVec.ofInt 12 imm)
  | .mv rd rs => .addi (BitVec.ofNat 5 rd) (BitVec.ofNat 5 rs) 0
  | .j disp => .jal 0 (BitVec.ofInt 20 (disp / 2))
  | .beqz rs disp => .beq (BitVec.ofNat 5 rs) 0 (BitVec.ofInt 12 (disp / 2))
  | .bnez rs disp => .bne (BitVec.ofNat 5 rs) 0 (BitVec.ofInt 12 (disp / 2))
  | .seqz rd rs => .sltiu (BitVec.ofNat 5 rd) (BitVec.ofNat 5 rs) 1

end Sys2Proof
end

