-- ==== Sys2Proof/WellFormed.lean ====
section
/-! DEFINITION. The checks on data the types do not already make: the opcode and funct3 values
(spec 00_scope.md R8, D2, D3), the memory's place in the address space (R8, D6), and the operands of
an assembler line (30_encoding.md R81). An `Instr` needs none: its fields have their encodings'
widths (R72). -/

namespace Sys2Proof

/-- The eight class opcodes (R73). -/
def Encoding.opcodes (e : Encoding) : List Opcode :=
  [e.opcLui, e.opcAuipc, e.opcJal, e.opcJalr, e.opcBranch, e.opcLoad, e.opcImm, e.opcSystem]

/-- "pairwise distinct" (R8). -/
def Encoding.opcodesDistinct (e : Encoding) : Bool := decide e.opcodes.Nodup

/-- "none equal to 0" (R8). -/
def Encoding.opcodesNonzero (e : Encoding) : Bool := e.opcodes.all (· != 0)

/-- "Within a class the values must be distinct" (D3). -/
def Encoding.functsDistinct (e : Encoding) : Bool :=
  decide [e.f3Beq, e.f3Bne].Nodup && decide [e.f3Addi, e.f3Slti, e.f3Sltiu].Nodup

/-- A usable set of opcode and funct3 values (R8, D2, D3). -/
def Encoding.wf (e : Encoding) : Bool :=
  e.opcodesDistinct && e.opcodesNonzero && e.functsDistinct

/-- `MEM_START` is below 2^32 (R8). -/
def Config.memStartOk (c : Config) : Bool := decide (c.memStart < 4294967296)

/-- `MEM_START + MEM_SIZE <= 2^32` (R8, D6). -/
def Config.memEndOk (c : Config) : Bool := decide (c.memStart + c.memSize ≤ 4294967296)

/-- Parameters R8 admits. -/
def Config.wf (c : Config) : Bool := c.enc.wf && c.memStartOk && c.memEndOk

/-- A register number of an assembler line (R81). -/
def regOk (r : Nat) : Bool := decide (r < 32)

/-- A raw 20-bit field, 0 to 0xFFFFF (R81). -/
def imm20Ok (v : Nat) : Bool := decide (v < 1048576)

/-- A signed 12-bit immediate, -2048 to 2047 (R81). -/
def imm12Ok (v : Int) : Bool := decide (-2048 ≤ v) && decide (v ≤ 2047)

/-- A JAL displacement: even, -1048576 to 1048574 (R81). -/
def jDispOk (v : Int) : Bool := decide (v % 2 = 0) && decide (-1048576 ≤ v) && decide (v ≤ 1048574)

/-- A branch displacement: even, -4096 to 4094 (R81). -/
def bDispOk (v : Int) : Bool := decide (v % 2 = 0) && decide (-4096 ≤ v) && decide (v ≤ 4094)

/-- An assembler line whose operands its encoding can hold (R81, R82). -/
def Asm.wf : Asm → Bool
  | .lui rd imm => regOk rd && imm20Ok imm
  | .auipc rd imm => regOk rd && imm20Ok imm
  | .jal rd disp => regOk rd && jDispOk disp
  | .jalr rd imm rs1 => regOk rd && imm12Ok imm && regOk rs1
  | .beq rs1 rs2 disp => regOk rs1 && regOk rs2 && bDispOk disp
  | .bne rs1 rs2 disp => regOk rs1 && regOk rs2 && bDispOk disp
  | .addi rd rs1 imm => regOk rd && regOk rs1 && imm12Ok imm
  | .slti rd rs1 imm => regOk rd && regOk rs1 && imm12Ok imm
  | .sltiu rd rs1 imm => regOk rd && regOk rs1 && imm12Ok imm
  | .lw rd imm rs1 => regOk rd && imm12Ok imm && regOk rs1
  | .ecall => true
  | .nop => true
  | .li rd imm => regOk rd && imm12Ok imm
  | .mv rd rs => regOk rd && regOk rs
  | .j disp => jDispOk disp
  | .beqz rs disp => regOk rs && bDispOk disp
  | .bnez rs disp => regOk rs && bDispOk disp
  | .seqz rd rs => regOk rd && regOk rs

end Sys2Proof
end

