-- ==== Sys2Proof/Safety.lean ====
section
/-! DEFINITION. What the claims are stated in: the invariant of the machine, runs, and what an
instruction leaves unchanged. -/

namespace Sys2Proof.Machine

/-- The states the spec admits: parameters as R8 allows, `x[0]` holding 0 (10_state.md R21), the
memory in its canonical form and inside its region (R30). -/
structure State.Inv (s : State) : Prop where
  cfg_wf : s.cfg.wf = true
  x0_zero : s.readReg 0 = 0
  mem_wf : s.mem.wf
  mem_within : s.mem.within s.cfg.memStart s.cfg.memSize

/-- The next cycle fetches the non-zero word `w`: the run has not ended, and the four bytes at the pc
are inside the memory (41_cycle.md R101, R102, R109). -/
structure FetchesWord (s : State) (w : Word) : Prop where
  running : s.terminated = false
  fetched : fetch s = .ok w
  nonzero : w ≠ 0

/-- All four bytes at `a` are inside the memory (20_memory.md R41). -/
def InMemory (s : State) (a : Word) : Prop :=
  s.cfg.memStart ≤ a.toNat ∧ a.toNat + 3 < s.cfg.memStart + s.cfg.memSize

/-- `t` is reached from `s` by cycles that all went on. -/
inductive Reaches : State → State → Prop where
  | refl (s : State) : Reaches s s
  | next {s t u : State} (before : Reaches s t) (last : step t = .next u) : Reaches s u

/-- `t` is reached from `s` by exactly `n` cycles that all went on. -/
inductive ReachesIn : Nat → State → State → Prop where
  | zero (s : State) : ReachesIn 0 s s
  | succ {n : Nat} {s t u : State} (first : step s = .next t) (after : ReachesIn n t u) :
      ReachesIn (n + 1) s u

/-- Everything but the registers and the pc is the same, each byte of memory included. -/
structure SameButRegsPc (s t : State) : Prop where
  mem : t.mem = s.mem
  bytes : ∀ a, t.mem.readByte a = s.mem.readByte a
  terminated : t.terminated = s.terminated
  cfg : t.cfg = s.cfg

/-- `t` is `s` with `v` in `x[rd]` (nothing written when `rd` is 0, R21) and `p` in the pc; every
other register, every byte of memory, the flag and the parameters are unchanged. -/
structure WritesRegAndPc (s t : State) (rd : RegIdx) (v p : Word) : Prop where
  dest : rd ≠ 0 → t.readReg rd = v
  others : ∀ r, r ≠ rd ∨ rd = 0 → t.readReg r = s.readReg r
  pc : t.pc = p
  rest : SameButRegsPc s t

/-- `t` is `s` with `p` in the pc; every register, every byte of memory, the flag and the parameters
are unchanged. -/
structure WritesPcOnly (s t : State) (p : Word) : Prop where
  regs : ∀ r, t.readReg r = s.readReg r
  pc : t.pc = p
  rest : SameButRegsPc s t

/-- The registers an instruction reads (10_state.md R23). -/
def regsRead (c : Config) : Instr → List RegIdx
  | .lui _ _ => []
  | .auipc _ _ => []
  | .jal _ _ => []
  | .jalr _ _ rs1 _ => if c.jalrMode = .standard then [rs1] else []
  | .beq rs1 rs2 _ => [rs1, rs2]
  | .bne rs1 rs2 _ => [rs1, rs2]
  | .addi _ rs1 _ => [rs1]
  | .slti _ rs1 _ => [rs1]
  | .sltiu _ rs1 _ => [rs1]
  | .lw _ rs1 _ => [rs1]
  | .ecall => [10, 11, 12, 13, 14, 15]

/-- The register an instruction writes when it goes on; a write to `x0` is none (10_state.md R21,
R23). -/
def regWritten (c : Config) : Instr → Option RegIdx
  | .lui rd _ => if rd = 0 then none else some rd
  | .auipc rd _ => if rd = 0 then none else some rd
  | .jal rd _ => if rd = 0 then none else some rd
  | .jalr rd _ _ _ => if c.jalrMode = .standard ∧ rd ≠ 0 then some rd else none
  | .beq _ _ _ => none
  | .bne _ _ _ => none
  | .addi rd _ _ => if rd = 0 then none else some rd
  | .slti rd _ _ => if rd = 0 then none else some rd
  | .sltiu rd _ _ => if rd = 0 then none else some rd
  | .lw rd _ _ => if rd = 0 then none else some rd
  | .ecall => none

/-- The same state with another pattern in one register: how two states are made to differ in a
claim. No instruction and no host interaction does this. -/
def State.withReg (s : State) (r : RegIdx) (v : Word) : State :=
  { s with regs := s.regs.set r.toNat v }

end Sys2Proof.Machine
end

