-- ==== Sys2Proof/Certificates/Slice0/Obligations.lean ====
section
/-! DEFINITION. The statements about the model, for the provers. They come from the numbered rules of
spec/; OBLIGATIONS.json gives each one's rule, quotation and tier. -/

open Sys2Proof Sys2Proof.Machine

/-! ## Arithmetic units (40_arithmetic_units.md) -/

/-- R90: `bit_mask_prefix(n)` is the mask of the low `n` bits, `2^n - 1`, for `0 <= n <= 32`. -/
def Obligations.BitMaskPrefixMasksLowBits : Prop :=
  ∀ n, n ≤ 32 →
    bitMaskPrefix n = 2 ^ n - 1 ∧ ∀ i, (bitMaskPrefix n).testBit i = decide (i < n)

/-- R91 on its stated domain, an unsigned `bits`-wide quantity with `bits` from 1 to 32: `2^bits` is
subtracted exactly when the high bit of the field is set; the result is in
`[-2^(bits-1), 2^(bits-1))`. -/
def Obligations.ToSignedReadsTwosComplement : Prop :=
  ∀ v bits : Nat, 1 ≤ bits → bits ≤ 32 → v < 2 ^ bits →
    (v.testBit (bits - 1) = true → toSigned v bits = (v : Int) - (2 ^ bits : Nat)) ∧
    (v.testBit (bits - 1) = false → toSigned v bits = v) ∧
    -((2 ^ (bits - 1) : Nat) : Int) ≤ toSigned v bits ∧ toSigned v bits < (2 ^ (bits - 1) : Nat)

/-- R91 for every integer and R93's companion laws: `to_signed` reduces its argument to `bits` bits
first. The spec's own choice (D17, assumption log 26) and derivation, not its source's. -/
def Obligations.ToSignedReducesItsArgumentFirst : Prop :=
  (∀ (v : Int) (bits : Nat), 1 ≤ bits → bits ≤ 32 →
    ((2 ^ bits : Nat) : Int) ∣ toSigned v bits - v ∧
    -((2 ^ (bits - 1) : Nat) : Int) ≤ toSigned v bits ∧ toSigned v bits < (2 ^ (bits - 1) : Nat)) ∧
  (∀ v : Int, truncate (toSigned v 32) 32 = truncate v 32) ∧
  (∀ p : Word, (4294967296 : Int) ∣ unsignedOf p - signedOf p) ∧
  (∀ (v : Int) (n i : Nat), 1 ≤ n → n ≤ 32 → i < 32 →
    (trunc32 (toSigned v n)).getLsbD i = (truncate v n).testBit (min i (n - 1)))

/-- R92 on the values its quotation covers: `truncate(value, bits)` is `value & bit_mask_prefix(bits)`,
the residue modulo `2^bits`. -/
def Obligations.TruncateMasksTheLowBits : Prop :=
  ∀ v bits : Nat, truncate v bits = v &&& bitMaskPrefix bits ∧ truncate v bits = v % 2 ^ bits

/-- R92 for every integer, negative included: the bitwise and with the mask on the infinite
two's-complement expansion, the unique residue in `[0, 2^bits)`. The spec takes the and of a negative
integer from general knowledge (G7). -/
def Obligations.TruncateIsTheResidueOfEveryInteger : Prop :=
  ∀ (v : Int) (bits : Nat),
    truncate v bits < 2 ^ bits ∧ ((2 ^ bits : Nat) : Int) ∣ v - truncate v bits ∧
    (truncate v bits : Int) = Int.land v (bitMaskPrefix bits)

/-- R93: for all `n`, `to_signed(truncate(n, 32), 32) == to_signed(n, 32)`. -/
def Obligations.ToSignedOfTruncateAgrees : Prop :=
  ∀ n : Int, toSigned (truncate n 32) 32 = toSigned n 32

/-! ## Memory (20_memory.md) -/

/-- R41: `read_word` gives the four consecutive bytes, least significant at the lowest address, when
all four are inside the memory, and the bounds error with that address otherwise. -/
def Obligations.ReadWordIsLittleEndianAndBounded : Prop :=
  ∀ (s : State) (a : Word),
    (InMemory s a → ∃ v, memRead s a = .ok v ∧
      ∀ i, i < 4 → v.extractLsb' (8 * i) 8 = s.mem.readByte (a.toNat + i)) ∧
    (¬ InMemory s a → memRead s a = .error (.memoryBoundsError a))

/-- R42: `write_word` stores the four little-endian bytes and nothing else, under the same bounds
contract. -/
def Obligations.WriteWordStoresItsFourBytes : Prop :=
  ∀ (s : State) (v a : Word), s.mem.wf →
    (InMemory s a → ∃ t, memWrite s v a = .ok t ∧
      (∀ i, i < 4 → t.mem.readByte (a.toNat + i) = v.extractLsb' (8 * i) 8) ∧
      (∀ b, b < a.toNat ∨ a.toNat + 3 < b → t.mem.readByte b = s.mem.readByte b) ∧
      t.regs = s.regs ∧ t.pc = s.pc ∧ t.terminated = s.terminated ∧ t.cfg = s.cfg) ∧
    (¬ InMemory s a → memWrite s v a = .error (.memoryBoundsError a))

/-- R43: `read_word(address)` after `write_word(value, address)` returns exactly `value`. -/
def Obligations.ReadWordReturnsTheWrittenWord : Prop :=
  ∀ (s : State) (v a : Word), s.mem.wf → InMemory s a →
    ∃ t, memWrite s v a = .ok t ∧ memRead t a = .ok v

/-- R47: a word read at `a+1` after a word written at `a` sees bytes 1 to 3 of that word in bits 23:0
and the byte at `a+4` in bits 31:24 (derived by the spec from R41 and R42). -/
def Obligations.OverlappingReadSeesTheWrittenBytes : Prop :=
  ∀ (s : State) (v a : Word), s.mem.wf → InMemory s a → a.toNat + 4 < s.cfg.memStart + s.cfg.memSize →
    a.toNat + 1 < 4294967296 →
    ∃ t u, memWrite s v a = .ok t ∧ memRead t (a + 1) = .ok u ∧
      u.extractLsb' 0 24 = v.extractLsb' 8 24 ∧ u.extractLsb' 24 8 = s.mem.readByte (a.toNat + 4)

/-- Equal memories are equal data: two memories in canonical form that read the same everywhere are
the same list (the model's own form of R30; assumption log 9 for what an unlisted byte reads as). -/
def Obligations.CanonicalMemoriesAgreeIfBytesAgree : Prop :=
  ∀ m n : Memory, m.wf → n.wf → (∀ a, m.readByte a = n.readByte a) → m = n

/-- A host write keeps the invariant of the machine: the canonical form of the memory, which is the
model's choice (assumption log 9), and its region included (R42, R30, R208; host writes stand beside
the step, assumption log 21). -/
def Obligations.HostWriteKeepsTheInvariant : Prop :=
  ∀ (s t : State) (v a : Word), s.Inv → hostWriteWord s v a = .next t → t.Inv

/-- R56: a host `write_word` at the pc is what the very next fetch reads (the spec's choice D20). -/
def Obligations.HostWriteIsSeenByTheNextFetch : Prop :=
  ∀ (s : State) (v : Word), s.mem.wf → InMemory s s.pc →
    ∃ t, hostWriteWord s v s.pc = .next t ∧ fetch t = .ok v ∧ t.pc = s.pc

/-! ## Decoder and encoder (30_encoding.md) -/

/-- Decode and encode agree: every instruction, with every operand at every value its encoding
admits, under every admissible set of opcode and funct3 values (R62 to R73, R75, R83). -/
def Obligations.DecodeOfEncodeIsTheInstruction : Prop :=
  ∀ (e : Encoding) (i : Instr), e.wf = true → decode e (encode e i) = .ok i

/-- The other direction: a word that decodes is the encoder's word of its instruction, up to ECALL's
ignored bits 19:7 (R77, R83). -/
def Obligations.EncodeOfDecodeIsTheWord : Prop :=
  ∀ (e : Encoding) (w : Word) (i : Instr), decode e w = .ok i →
    (i ≠ .ecall → encode e i = w) ∧ (i = .ecall → encode e i = w &&& 0xFFF0007F)

/-- R68, R69: the scattered offsets in word bits, and the byte displacements they spell. -/
def Obligations.ScatteredOffsetsFollowTheLayouts : Prop :=
  (∀ w : Word, (offsetJOf w).toNat =
    (w.extractLsb' 21 10).toNat ||| (w.extractLsb' 20 1).toNat <<< 10 |||
      (w.extractLsb' 12 8).toNat <<< 11 ||| (w.extractLsb' 31 1).toNat <<< 19) ∧
  (∀ o : Imm20, displacementJ o = o.toInt * 2 ∧ displacementJ o % 2 = 0 ∧
    -1048576 ≤ displacementJ o ∧ displacementJ o ≤ 1048574) ∧
  (∀ w : Word, (offsetBOf w).toNat =
    (w.extractLsb' 8 4).toNat ||| (w.extractLsb' 25 6).toNat <<< 4 |||
      (w.extractLsb' 7 1).toNat <<< 10 ||| (w.extractLsb' 31 1).toNat <<< 11) ∧
  (∀ o : Imm12, displacementB o = o.toInt * 2 ∧ displacementB o % 2 = 0 ∧
    -4096 ≤ displacementB o ∧ displacementB o ≤ 4094)

/-- R74: a word whose opcode is none of the eight is a decode error that reports the opcode and ends
the run; 120 of the 128 opcode values are such. -/
def Obligations.UnknownOpcodesAreDecodeErrors : Prop :=
  (∀ (e : Encoding) (w : Word), w.extractLsb' 0 7 ∉ e.opcodes →
    decode e w = .error (.unimplementedOpcode (w.extractLsb' 0 7))) ∧
  (∀ (s : State) (w : Word), FetchesWord s w → w.extractLsb' 0 7 ∉ s.cfg.enc.opcodes →
    step s = .fault (.decodeError (w.extractLsb' 0 7))) ∧
  (∀ e : Encoding, e.wf = true →
    ((List.range 128).filter fun n => decide (BitVec.ofNat 7 n ∉ e.opcodes)).length = 120)

/-- R54, R66, R80: with the RV32I values (D2, assumption log 5) the OP, STORE and MISC-MEM opcodes and
every word whose low two bits are not `11` are decode errors, whatever their other bits (the names
are general knowledge in the spec). -/
def Obligations.LackedOpcodesAreDecodeErrors : Prop :=
  ∀ w : Word,
    w.extractLsb' 0 7 = 0x33 ∨ w.extractLsb' 0 7 = 0x23 ∨ w.extractLsb' 0 7 = 0x0F ∨
      w.extractLsb' 0 2 ≠ 3 →
    decode .rv32i w = .error (.unimplementedOpcode (w.extractLsb' 0 7)) ∧
    decodeTableWord 32 w.toNat = none

/-- R132, R143, R151, R159: a recognised class with a funct value it does not implement is an execute
error that reports the class and the value, before any register, memory or hook is used. That the
error is named ExecuteError is the spec's choice D13 (assumption log 18). -/
def Obligations.UnimplementedFunctsAreExecuteErrors : Prop :=
  ∀ (s : State) (w : Word), s.cfg.wf = true → FetchesWord s w →
    (w.extractLsb' 0 7 = s.cfg.enc.opcBranch → w.extractLsb' 12 3 ≠ s.cfg.enc.f3Beq →
      w.extractLsb' 12 3 ≠ s.cfg.enc.f3Bne →
      step s = .fault (.executeError .branch (w.extractLsb' 12 3).toNat)) ∧
    (w.extractLsb' 0 7 = s.cfg.enc.opcImm → w.extractLsb' 12 3 ≠ s.cfg.enc.f3Addi →
      w.extractLsb' 12 3 ≠ s.cfg.enc.f3Slti → w.extractLsb' 12 3 ≠ s.cfg.enc.f3Sltiu →
      step s = .fault (.executeError .imm (w.extractLsb' 12 3).toNat)) ∧
    (w.extractLsb' 0 7 = s.cfg.enc.opcLoad → w.extractLsb' 12 3 ≠ s.cfg.enc.f3Lw →
      step s = .fault (.executeError .load (w.extractLsb' 12 3).toNat)) ∧
    (w.extractLsb' 0 7 = s.cfg.enc.opcSystem → w.extractLsb' 20 12 ≠ 0 →
      step s = .fault (.executeError .system (w.extractLsb' 20 12).toNat))

/-- R77: a SYSTEM word is ECALL exactly when `w[31:20]` is 0, whatever its bits 19:7; decoding drops no
bit of any other instruction's word: two words that decode to it are the same word. JALR's funct3 is
such a bit group, carried in the instruction and examined by no rule (the spec's choice D12, assumption
log 8); that is `JalrStandardJumpsToTheRegister`'s and `JalrUnsupportedIsAnExecuteError`'s to say. -/
def Obligations.DecodingDropsOnlyEcallsBits : Prop :=
  (∀ (e : Encoding) (w : Word), e.wf = true → w.extractLsb' 0 7 = e.opcSystem →
    (decode e w = .ok .ecall ↔ w.extractLsb' 20 12 = 0)) ∧
  (∀ (e : Encoding) (w w' : Word) (i : Instr), decode e w = .ok i → decode e w' = .ok i →
    i ≠ .ecall → w = w')

/-- R78: the zero word handed to the decoder is a decode error, and inside a cycle never reaches it
(the spec's choice D8, assumption log 23); a non-zero word with opcode 0 does and is a decode
error. -/
def Obligations.ZeroOpcodeWordsAreDecodeErrors : Prop :=
  (∀ e : Encoding, e.wf = true → decode e 0 = .error (.unimplementedOpcode 0)) ∧
  (∀ s : State, s.terminated = false → fetch s = .ok 0 → ∃ t, cycle s = .skipped t) ∧
  (∀ (s : State) (w : Word), s.cfg.wf = true → FetchesWord s w → w.extractLsb' 0 7 = 0 →
    step s = .fault (.decodeError 0))

/-- Words the spec spells out, bit by bit, are the instructions it says (R83's examples and vectors
V-DEC). The opcode and funct3 values are the RV32I ones (D2, D3, assumption log 5). -/
def Obligations.SpecExampleWordsDecode : Prop :=
  decode .rv32i 0xFFF30293 = .ok (.addi 5 6 0xFFF) ∧
  decode .rv32i 0x123452B7 = .ok (.lui 5 0x12345) ∧
  decode .rv32i 0xFFFFF297 = .ok (.auipc 5 0xFFFFF) ∧
  decode .rv32i 0x00C000EF = .ok (.jal 1 6) ∧
  decode .rv32i 0x001000EF = .ok (.jal 1 0x00400) ∧
  decode .rv32i 0x000FF0EF = .ok (.jal 1 0x7F800) ∧
  decode .rv32i 0xFFE280E7 = .ok (.jalr 1 0 5 0xFFE) ∧
  decode .rv32i 0x00628463 = .ok (.beq 5 6 4) ∧
  decode .rv32i 0xFE009CE3 = .ok (.bne 1 0 0xFFC) ∧
  decode .rv32i 0x00000AE3 = .ok (.beq 0 0 0x40A) ∧
  decode .rv32i 0xFFF2A393 = .ok (.slti 7 5 0xFFF) ∧
  decode .rv32i 0xFFF2B393 = .ok (.sltiu 7 5 0xFFF) ∧
  decode .rv32i 0xFFC2A303 = .ok (.lw 6 5 0xFFC) ∧
  decode .rv32i 0x00000073 = .ok .ecall ∧
  decode .rv32i 0x000312F3 = .ok .ecall ∧
  decode .rv32i 0x00000080 = .error (.unimplementedOpcode 0)

/-- R83: the words of the four layouts as the formulas give them, from field values and byte
displacements (derived by the spec from R62 to R70 and R73). -/
def Obligations.EncodedWordsFollowTheFormulas : Prop :=
  (∀ (op : Opcode) (rd : RegIdx) (imm : Imm20), (encodeU op rd imm).toNat =
    imm.toNat <<< 12 ||| rd.toNat <<< 7 ||| op.toNat) ∧
  (∀ (op : Opcode) (rd : RegIdx) (f3 : Funct3) (rs1 : RegIdx) (imm : Int), imm12Ok imm = true →
    (encodeI op rd f3 rs1 (BitVec.ofInt 12 imm)).toNat =
      truncate imm 12 <<< 20 ||| rs1.toNat <<< 15 ||| f3.toNat <<< 12 ||| rd.toNat <<< 7 |||
        op.toNat) ∧
  (∀ (op : Opcode) (rd : RegIdx) (disp : Int), jDispOk disp = true →
    (encodeJ op rd (BitVec.ofInt 20 (disp / 2))).toNat =
      (truncate disp 21 >>> 20 % 2) <<< 31 ||| (truncate disp 21 >>> 1 % 1024) <<< 21 |||
        (truncate disp 21 >>> 11 % 2) <<< 20 ||| (truncate disp 21 >>> 12 % 256) <<< 12 |||
        rd.toNat <<< 7 ||| op.toNat) ∧
  (∀ (op : Opcode) (f3 : Funct3) (rs1 rs2 : RegIdx) (disp : Int), bDispOk disp = true →
    (encodeB op f3 rs1 rs2 (BitVec.ofInt 12 (disp / 2))).toNat =
      (truncate disp 13 >>> 12 % 2) <<< 31 ||| (truncate disp 13 >>> 5 % 64) <<< 25 |||
        rs2.toNat <<< 20 ||| rs1.toNat <<< 15 ||| f3.toNat <<< 12 |||
        (truncate disp 13 >>> 1 % 16) <<< 8 ||| (truncate disp 13 >>> 11 % 2) <<< 7 ||| op.toNat)

/-- R81, R82: every assembler line whose operands its encoding can hold stands for its own
instruction, each field of which reads as the operand written: register numbers, byte displacements,
signed immediates, the raw 20-bit field; and a pseudo-instruction is the line it expands to (general
knowledge in the spec, D24, assumption log 29). -/
def Obligations.AssemblerOperandsMeanTheirNumbers : Prop :=
  (∀ a : Asm, a.wf = true →
    match a with
    | .lui rd imm => ∃ d i, a.instr = .lui d i ∧ d.toNat = rd ∧ i.toNat = imm
    | .auipc rd imm => ∃ d i, a.instr = .auipc d i ∧ d.toNat = rd ∧ i.toNat = imm
    | .jal rd disp => ∃ d o, a.instr = .jal d o ∧ d.toNat = rd ∧ displacementJ o = disp
    | .jalr rd imm rs1 => ∃ d b o, a.instr = .jalr d 0 b o ∧
        d.toNat = rd ∧ b.toNat = rs1 ∧ immediateI o = imm
    | .beq rs1 rs2 disp => ∃ b c o, a.instr = .beq b c o ∧
        b.toNat = rs1 ∧ c.toNat = rs2 ∧ displacementB o = disp
    | .bne rs1 rs2 disp => ∃ b c o, a.instr = .bne b c o ∧
        b.toNat = rs1 ∧ c.toNat = rs2 ∧ displacementB o = disp
    | .addi rd rs1 imm => ∃ d b i, a.instr = .addi d b i ∧
        d.toNat = rd ∧ b.toNat = rs1 ∧ immediateI i = imm
    | .slti rd rs1 imm => ∃ d b i, a.instr = .slti d b i ∧
        d.toNat = rd ∧ b.toNat = rs1 ∧ immediateI i = imm
    | .sltiu rd rs1 imm => ∃ d b i, a.instr = .sltiu d b i ∧
        d.toNat = rd ∧ b.toNat = rs1 ∧ immediateI i = imm
    | .lw rd imm rs1 => ∃ d b i, a.instr = .lw d b i ∧
        d.toNat = rd ∧ b.toNat = rs1 ∧ immediateI i = imm
    | .ecall => a.instr = .ecall
    | .nop => a.instr = .addi 0 0 0
    | .li rd imm => ∃ d i, a.instr = .addi d 0 i ∧ d.toNat = rd ∧ immediateI i = imm
    | .mv rd rs => ∃ d b, a.instr = .addi d b 0 ∧ d.toNat = rd ∧ b.toNat = rs
    | .j disp => ∃ o, a.instr = .jal 0 o ∧ displacementJ o = disp
    | .beqz rs disp => ∃ b o, a.instr = .beq b 0 o ∧ b.toNat = rs ∧ displacementB o = disp
    | .bnez rs disp => ∃ b o, a.instr = .bne b 0 o ∧ b.toNat = rs ∧ displacementB o = disp
    | .seqz rd rs => ∃ d b, a.instr = .sltiu d b 1 ∧ d.toNat = rd ∧ b.toNat = rs) ∧
  (∀ (rd rs : Nat) (imm disp : Int),
    Asm.nop.instr = (Asm.addi 0 0 0).instr ∧
    (Asm.li rd imm).instr = (Asm.addi rd 0 imm).instr ∧
    (Asm.mv rd rs).instr = (Asm.addi rd rs 0).instr ∧
    (Asm.j disp).instr = (Asm.jal 0 disp).instr ∧
    (Asm.beqz rs disp).instr = (Asm.beq rs 0 disp).instr ∧
    (Asm.bnez rs disp).instr = (Asm.bne rs 0 disp).instr ∧
    (Asm.seqz rd rs).instr = (Asm.sltiu rd rs 1).instr)

/-! ## The cycle (41_cycle.md, 60_exceptions.md) -/

/-- R105: the whole cycle, in its order: fetch, zero-word skip, decode, execute, x0 enforcer. A step
runs the decoded instruction. That the skip stands in the cycle is the spec's choice D8 (assumption
log 23), the name of a rejected word's error its choice D13 (assumption log 18). -/
def Obligations.StepRunsTheDecodedInstruction : Prop :=
  ∀ s : State, s.terminated = false →
    (∀ e, fetch s = .error e → step s = .fault e) ∧
    (fetch s = .ok 0 → step s = .next (s.setPc (s.pc + 4))) ∧
    (∀ w r, fetch s = .ok w → w ≠ 0 → decode s.cfg.enc w = .error r →
      step s = .fault (rejectFault r)) ∧
    (∀ w i t, fetch s = .ok w → w ≠ 0 → decode s.cfg.enc w = .ok i → exec i s = .next t →
      step s = .next t.enforceX0) ∧
    (∀ w i e, fetch s = .ok w → w ≠ 0 → decode s.cfg.enc w = .ok i → exec i s = .fault e →
      step s = .fault e)

/-- R101: the fetch is one little-endian word at the pc, aligned or not; with a byte of it outside
the memory the cycle ends with the bounds error at the pc. -/
def Obligations.FetchReadsTheWordAtThePc : Prop :=
  ∀ s : State,
    (InMemory s s.pc → ∃ w, fetch s = .ok w ∧
      ∀ i, i < 4 → w.extractLsb' (8 * i) 8 = s.mem.readByte (s.pc.toNat + i)) ∧
    (¬ InMemory s s.pc → s.terminated = false → step s = .fault (.memoryBoundsError s.pc))

/-- R102: a zero word is skipped: the pc advances, nothing else changes, no error. That the skip
stands in the cycle is the spec's choice (D8, assumption log 23). -/
def Obligations.ZeroWordIsSkipped : Prop :=
  ∀ s : State, s.terminated = false → fetch s = .ok 0 →
    ∃ t, cycle s = .skipped t ∧ step s = .next t ∧ WritesPcOnly s t (s.pc + 4)

/-- R21, R107: after every executed instruction register 0 is 0, whatever it held and whatever the
instruction tried to write into it; the enforcer changes nothing else. -/
def Obligations.X0IsForcedToZeroAfterEveryInstruction : Prop :=
  ∀ (s t : State) (w : Word) (i : Instr), FetchesWord s w → decode s.cfg.enc w = .ok i →
    exec i s = .next t → ∃ u, cycle s = .retired u ∧ u.readReg 0 = 0 ∧
      (∀ r, r ≠ 0 → u.readReg r = t.readReg r) ∧ u.pc = t.pc ∧ u.mem = t.mem ∧
      u.terminated = t.terminated ∧ u.cfg = t.cfg

/-- R21: along every run from every reset, with whatever memory and parameters, `x0` reads 0 (the
spec derives it from R33 and R107). -/
def Obligations.X0ReadsZeroAlongEveryRun : Prop :=
  ∀ (c : Config) (r : Vector Word 32) (p : Word) (m : Memory) (t : State),
    Reaches (State.resetWith c r p m) t → t.readReg 0 = 0

/-- No step exists once the run has ended normally, and a step is refused in no other state (R109;
the spec's choice D16, assumption log 10). -/
def Obligations.NoStepAfterTheRunEnded : Prop :=
  ∀ s : State, (s.terminated = true → step s = .refused .runTerminated) ∧
    (s.terminated = false → (∃ t, step s = .next t) ∨ ∃ e, step s = .fault e)

/-- R170 to R175: a step that ends with a fatal error met one of the causes the taxonomy lists, in
the cycle's order, and reports the value the taxonomy says (the split between decode and execute
errors is the spec's choice D13, assumption log 18). -/
def Obligations.FatalErrorsAreTheTaxonomys : Prop :=
  ∀ (s : State) (e : Fault), step s = .fault e →
    (¬ InMemory s s.pc ∧ e = .memoryBoundsError s.pc) ∨
    ∃ w, FetchesWord s w ∧
      ((w.extractLsb' 0 7 ∉ s.cfg.enc.opcodes ∧ e = .decodeError (w.extractLsb' 0 7)) ∨
      (w.extractLsb' 0 7 = s.cfg.enc.opcBranch ∧ w.extractLsb' 12 3 ≠ s.cfg.enc.f3Beq ∧
        w.extractLsb' 12 3 ≠ s.cfg.enc.f3Bne ∧
        e = .executeError .branch (w.extractLsb' 12 3).toNat) ∨
      (w.extractLsb' 0 7 = s.cfg.enc.opcImm ∧ w.extractLsb' 12 3 ≠ s.cfg.enc.f3Addi ∧
        w.extractLsb' 12 3 ≠ s.cfg.enc.f3Slti ∧ w.extractLsb' 12 3 ≠ s.cfg.enc.f3Sltiu ∧
        e = .executeError .imm (w.extractLsb' 12 3).toNat) ∨
      (w.extractLsb' 0 7 = s.cfg.enc.opcLoad ∧ w.extractLsb' 12 3 ≠ s.cfg.enc.f3Lw ∧
        e = .executeError .load (w.extractLsb' 12 3).toNat) ∨
      (w.extractLsb' 0 7 = s.cfg.enc.opcSystem ∧ w.extractLsb' 20 12 ≠ 0 ∧
        e = .executeError .system (w.extractLsb' 20 12).toNat) ∨
      (w.extractLsb' 0 7 = s.cfg.enc.opcJalr ∧ s.cfg.jalrMode = .unsupported ∧
        e = .executeError .jalr s.cfg.enc.opcJalr.toNat) ∨
      (∃ rd rs1 imm, decode s.cfg.enc w = .ok (.lw rd rs1 imm) ∧
        ¬ InMemory s (s.readReg rs1 + imm.signExtend 32) ∧
        e = .memoryBoundsError (s.readReg rs1 + imm.signExtend 32)) ∨
      (decode s.cfg.enc w = .ok .ecall ∧
        ∃ r, hookAnswer s.cfg.hook s.syscallArgs = .fail r ∧ e = failFault r))

/-- R28, R108, R158: a step ends with `terminated` set exactly when it executed an ECALL whose hook
answered `Terminate`. -/
def Obligations.OnlyATerminatingEcallSetsTerminated : Prop :=
  ∀ s t : State, step s = .next t →
    (t.terminated = true ↔ ∃ w, FetchesWord s w ∧ decode s.cfg.enc w = .ok .ecall ∧
      hookAnswer s.cfg.hook s.syscallArgs = .terminate)

/-- R50, R34: no sequence of steps changes a byte of memory or a parameter (derived by the spec: it has
no store; the parameters standing in the state is the model's choice, assumption log 1). About steps
alone: a host write between two cycles (R208) is none, and does change memory (the model's choice,
assumption log 21). -/
def Obligations.NoStepsChangeMemoryOrParameters : Prop :=
  ∀ s t : State, Reaches s t →
    t.mem = s.mem ∧ (∀ a, t.mem.readByte a = s.mem.readByte a) ∧ t.cfg = s.cfg

/-- R25: the new pc of every cycle that goes on, case by case (the summary the spec derives). -/
def Obligations.PcMovesAsTheSummarySays : Prop :=
  ∀ s t : State, step s = .next t →
    (fetch s = .ok 0 ∧ t.pc = s.pc + 4) ∨
    ∃ w i, FetchesWord s w ∧ decode s.cfg.enc w = .ok i ∧
      t.pc = match i with
        | .lui _ _ => s.pc + 4
        | .auipc _ _ => s.pc + 4
        | .jal _ o => s.pc + o.signExtend 32 * 2
        | .jalr _ _ rs1 o => (s.readReg rs1 + o.signExtend 32) &&& 0xFFFFFFFE
        | .beq rs1 rs2 o =>
          if s.readReg rs1 = s.readReg rs2 then s.pc + o.signExtend 32 * 2 else s.pc + 4
        | .bne rs1 rs2 o =>
          if s.readReg rs1 ≠ s.readReg rs2 then s.pc + o.signExtend 32 * 2 else s.pc + 4
        | .addi _ _ _ => s.pc + 4
        | .slti _ _ _ => s.pc + 4
        | .sltiu _ _ _ => s.pc + 4
        | .lw _ _ _ => s.pc + 4
        | .ecall => s.pc + 4

/-- An even pc stays even (R48, R106, R120, R122, R130): displacements are multiples of 2 and JALR
clears bit 0. A pc that is a multiple of 4 need not stay one. -/
def Obligations.EvenPcStaysEven : Prop :=
  ∀ s t : State, s.pc.getLsbD 0 = false → step s = .next t → t.pc.getLsbD 0 = false

/-- The invariant of the machine is kept by every step: parameters as R8 allows, `x0` 0 (R21), the
memory in canonical form and inside its region (R30). -/
def Obligations.InvariantIsKeptByEveryStep : Prop :=
  ∀ s t : State, s.Inv → step s = .next t → t.Inv

/-- Every reset with admissible parameters and memory meets the invariant, `State.reset` among them
(R33, R200). -/
def Obligations.InvariantHoldsAtReset : Prop :=
  (∀ (c : Config) (r : Vector Word 32) (p : Word) (m : Memory), c.wf = true → m.wf →
    m.within c.memStart c.memSize → (State.resetWith c r p m).Inv) ∧ State.reset.Inv

/-- R200, R33: reset gives `x[0]` 0, the other registers, the pc and the memory from its parameters,
and `terminated` false. At `State.reset` the registers are all 0 (the spec's choice D4, assumption
log 4), JAL links literally and JALR is unsupported (the spec's defaults D9 and D11, assumption logs 6
and 7), the hook is the reference hook; the pc and the memory's place are the model's choice
(assumption logs 2 and 3) and not stated. -/
def Obligations.ResetFollowsItsParameters : Prop :=
  (∀ (c : Config) (r : Vector Word 32) (p : Word) (m : Memory),
    (State.resetWith c r p m).readReg 0 = 0 ∧
    (∀ i : RegIdx, i ≠ 0 → (State.resetWith c r p m).readReg i = r[i.toNat]) ∧
    (State.resetWith c r p m).pc = p ∧ (State.resetWith c r p m).mem = m ∧
    (State.resetWith c r p m).terminated = false ∧ (State.resetWith c r p m).cfg = c) ∧
  (∀ i : RegIdx, State.reset.readReg i = 0) ∧ (∀ a, State.reset.mem.readByte a = 0) ∧
  State.reset.terminated = false ∧ State.reset.cfg.jalLinkMode = .literal ∧
  State.reset.cfg.jalrMode = .unsupported ∧ State.reset.cfg.hook = .reference

/-- R23: an instruction depends on no register but those it reads: with another value in any other
register it ends the same way, in the same next state but for that register, which keeps the other
value unless the instruction writes it. -/
def Obligations.UnreadRegistersHaveNoInfluence : Prop :=
  ∀ (i : Instr) (s : State) (r : RegIdx) (v : Word), r ∉ regsRead s.cfg i →
    (∀ t, exec i s = .next t →
      exec i (s.withReg r v) = .next (if regWritten s.cfg i = some r then t else t.withReg r v)) ∧
    (∀ e, exec i s = .fault e → exec i (s.withReg r v) = .fault e)

/-! ## Instructions: encoding, completion, result, frame (42 to 47) -/

/-- R115: LUI. -/
def Obligations.LuiLoadsTheUpperImmediate : Prop :=
  (∀ (e : Encoding) (w : Word), e.wf = true → w.extractLsb' 0 7 = e.opcLui →
    decode e w = .ok (.lui (w.extractLsb' 7 5) (w.extractLsb' 12 20))) ∧
  (∀ (rd : RegIdx) (imm : Imm20) (s : State), ∃ t, exec (.lui rd imm) s = .next t ∧
    WritesRegAndPc s t rd (imm ++ (0 : BitVec 12)) (s.pc + 4))

/-- R116: AUIPC, with the pc of this instruction, the sum wrapping modulo 2^32. -/
def Obligations.AuipcAddsTheUpperImmediateToThePc : Prop :=
  (∀ (e : Encoding) (w : Word), e.wf = true → w.extractLsb' 0 7 = e.opcAuipc →
    decode e w = .ok (.auipc (w.extractLsb' 7 5) (w.extractLsb' 12 20))) ∧
  (∀ (rd : RegIdx) (imm : Imm20) (s : State), ∃ t, exec (.auipc rd imm) s = .next t ∧
    WritesRegAndPc s t rd (s.pc + (imm ++ (0 : BitVec 12))) (s.pc + 4))

/-- R120: JAL in both link modes; the target is not checked. The default mode (D9) is not used; the
link's wrap modulo 2^32 is the spec's choice (D10, assumption log 17). -/
def Obligations.JalJumpsAndLinks : Prop :=
  (∀ (e : Encoding) (w : Word), e.wf = true → w.extractLsb' 0 7 = e.opcJal →
    decode e w = .ok (.jal (w.extractLsb' 7 5)
      (w.extractLsb' 31 1 ++ w.extractLsb' 12 8 ++ w.extractLsb' 20 1 ++ w.extractLsb' 21 10))) ∧
  (∀ (rd : RegIdx) (offset : Imm20) (s : State), ∃ t, exec (.jal rd offset) s = .next t ∧
    (s.cfg.jalLinkMode = .literal → WritesRegAndPc s t rd
      (s.pc + offset.signExtend 32 * 2 + 4) (s.pc + offset.signExtend 32 * 2)) ∧
    (s.cfg.jalLinkMode = .standard → WritesRegAndPc s t rd
      (s.pc + 4) (s.pc + offset.signExtend 32 * 2)))

/-- R121: JALR in unsupported mode is the execute error that reports the opcode, for every word of
the class. That this mode is the default is the spec's choice (D11, assumption log 7). -/
def Obligations.JalrUnsupportedIsAnExecuteError : Prop :=
  (∀ (s : State) (w : Word), s.cfg.wf = true → FetchesWord s w →
    w.extractLsb' 0 7 = s.cfg.enc.opcJalr → s.cfg.jalrMode = .unsupported →
    step s = .fault (.executeError .jalr s.cfg.enc.opcJalr.toNat)) ∧
  (∀ (rd : RegIdx) (f3 : Funct3) (rs1 : RegIdx) (offset : Imm12) (s : State),
    s.cfg.jalrMode = .unsupported →
    exec (.jalr rd f3 rs1 offset) s = .fault (.executeError .jalr s.cfg.enc.opcJalr.toNat))

/-- R122: JALR in standard mode: the sum with bit 0 cleared, the link from the old pc; funct3 is not
examined (the spec's choice D12, assumption log 8). -/
def Obligations.JalrStandardJumpsToTheRegister : Prop :=
  (∀ (e : Encoding) (w : Word), e.wf = true → w.extractLsb' 0 7 = e.opcJalr →
    decode e w = .ok (.jalr (w.extractLsb' 7 5) (w.extractLsb' 12 3) (w.extractLsb' 15 5)
      (w.extractLsb' 20 12))) ∧
  (∀ (rd : RegIdx) (f3 : Funct3) (rs1 : RegIdx) (offset : Imm12) (s : State),
    s.cfg.jalrMode = .standard → ∃ t, exec (.jalr rd f3 rs1 offset) s = .next t ∧
      WritesRegAndPc s t rd (s.pc + 4)
        ((s.readReg rs1 + offset.signExtend 32) &&& 0xFFFFFFFE))

/-- R130: BEQ. -/
def Obligations.BeqBranchesOnEqualPatterns : Prop :=
  (∀ (e : Encoding) (w : Word), e.wf = true → w.extractLsb' 0 7 = e.opcBranch →
    w.extractLsb' 12 3 = e.f3Beq →
    decode e w = .ok (.beq (w.extractLsb' 15 5) (w.extractLsb' 20 5)
      (w.extractLsb' 31 1 ++ w.extractLsb' 7 1 ++ w.extractLsb' 25 6 ++ w.extractLsb' 8 4))) ∧
  (∀ (rs1 rs2 : RegIdx) (offset : Imm12) (s : State), ∃ t, exec (.beq rs1 rs2 offset) s = .next t ∧
    (s.readReg rs1 = s.readReg rs2 → WritesPcOnly s t (s.pc + offset.signExtend 32 * 2)) ∧
    (s.readReg rs1 ≠ s.readReg rs2 → WritesPcOnly s t (s.pc + 4)))

/-- R131: BNE. -/
def Obligations.BneBranchesOnDifferentPatterns : Prop :=
  (∀ (e : Encoding) (w : Word), e.wf = true → w.extractLsb' 0 7 = e.opcBranch →
    w.extractLsb' 12 3 = e.f3Bne →
    decode e w = .ok (.bne (w.extractLsb' 15 5) (w.extractLsb' 20 5)
      (w.extractLsb' 31 1 ++ w.extractLsb' 7 1 ++ w.extractLsb' 25 6 ++ w.extractLsb' 8 4))) ∧
  (∀ (rs1 rs2 : RegIdx) (offset : Imm12) (s : State), ∃ t, exec (.bne rs1 rs2 offset) s = .next t ∧
    (s.readReg rs1 ≠ s.readReg rs2 → WritesPcOnly s t (s.pc + offset.signExtend 32 * 2)) ∧
    (s.readReg rs1 = s.readReg rs2 → WritesPcOnly s t (s.pc + 4)))

/-- R140: ADDI, the overflow ignored. -/
def Obligations.AddiAddsTheImmediate : Prop :=
  (∀ (e : Encoding) (w : Word), e.wf = true → w.extractLsb' 0 7 = e.opcImm →
    w.extractLsb' 12 3 = e.f3Addi →
    decode e w = .ok (.addi (w.extractLsb' 7 5) (w.extractLsb' 15 5) (w.extractLsb' 20 12))) ∧
  (∀ (rd rs1 : RegIdx) (imm : Imm12) (s : State), ∃ t, exec (.addi rd rs1 imm) s = .next t ∧
    WritesRegAndPc s t rd (s.readReg rs1 + imm.signExtend 32) (s.pc + 4))

/-- R141: SLTI, on the signed readings. -/
def Obligations.SltiComparesSigned : Prop :=
  (∀ (e : Encoding) (w : Word), e.wf = true → w.extractLsb' 0 7 = e.opcImm →
    w.extractLsb' 12 3 = e.f3Slti →
    decode e w = .ok (.slti (w.extractLsb' 7 5) (w.extractLsb' 15 5) (w.extractLsb' 20 12))) ∧
  (∀ (rd rs1 : RegIdx) (imm : Imm12) (s : State), ∃ t, exec (.slti rd rs1 imm) s = .next t ∧
    WritesRegAndPc s t rd (if (s.readReg rs1).toInt < imm.toInt then 1 else 0) (s.pc + 4))

/-- R142: SLTIU, on the unsigned readings, the immediate sign-extended first. -/
def Obligations.SltiuComparesUnsigned : Prop :=
  (∀ (e : Encoding) (w : Word), e.wf = true → w.extractLsb' 0 7 = e.opcImm →
    w.extractLsb' 12 3 = e.f3Sltiu →
    decode e w = .ok (.sltiu (w.extractLsb' 7 5) (w.extractLsb' 15 5) (w.extractLsb' 20 12))) ∧
  (∀ (rd rs1 : RegIdx) (imm : Imm12) (s : State), ∃ t, exec (.sltiu rd rs1 imm) s = .next t ∧
    WritesRegAndPc s t rd
      (if (s.readReg rs1).toNat < (imm.signExtend 32 : Word).toNat then 1 else 0) (s.pc + 4))

/-- R150: LW. The address wraps, then all four bytes must be inside the memory; the word is
little-endian, at any alignment; otherwise the bounds error reports the address, also when `rd` is
0. -/
def Obligations.LwLoadsTheWord : Prop :=
  (∀ (e : Encoding) (w : Word), e.wf = true → w.extractLsb' 0 7 = e.opcLoad →
    w.extractLsb' 12 3 = e.f3Lw →
    decode e w = .ok (.lw (w.extractLsb' 7 5) (w.extractLsb' 15 5) (w.extractLsb' 20 12))) ∧
  (∀ (rd rs1 : RegIdx) (imm : Imm12) (s : State),
    (InMemory s (s.readReg rs1 + imm.signExtend 32) →
      ∃ t v, exec (.lw rd rs1 imm) s = .next t ∧ WritesRegAndPc s t rd v (s.pc + 4) ∧
        ∀ i, i < 4 → v.extractLsb' (8 * i) 8 =
          s.mem.readByte ((s.readReg rs1 + imm.signExtend 32).toNat + i)) ∧
    (¬ InMemory s (s.readReg rs1 + imm.signExtend 32) →
      exec (.lw rd rs1 imm) s =
        .fault (.memoryBoundsError (s.readReg rs1 + imm.signExtend 32))))

/-- R155: ECALL asks the hook with `x10` to `x15` and acts on each of its three answers; it writes no
register and no memory. -/
def Obligations.EcallActsOnTheHooksAnswer : Prop :=
  (∀ (e : Encoding) (w : Word), e.wf = true → w.extractLsb' 0 7 = e.opcSystem →
    w.extractLsb' 20 12 = 0 → decode e w = .ok .ecall) ∧
  (∀ (s : State) (args : SyscallArgs),
    args = ⟨s.readReg 10, s.readReg 11, s.readReg 12, s.readReg 13, s.readReg 14, s.readReg 15⟩ →
    (hookAnswer s.cfg.hook args = .continues →
      ∃ t, exec .ecall s = .next t ∧ WritesPcOnly s t (s.pc + 4)) ∧
    (hookAnswer s.cfg.hook args = .terminate →
      ∃ t, exec .ecall s = .next t ∧ t.terminated = true ∧ t.pc = s.pc + 4 ∧
        (∀ r, t.readReg r = s.readReg r) ∧ t.mem = s.mem ∧
        (∀ a, t.mem.readByte a = s.mem.readByte a) ∧ t.cfg = s.cfg) ∧
    (∀ reason, hookAnswer s.cfg.hook args = .fail reason →
      exec .ecall s = .fault (failFault reason)))

/-- R157, R158: with the reference hook, ECALL terminates exactly on call code 1, whatever `a1` to
`a5` hold, and any other code is the unknown-system-call error that reports it (the payload is the
spec's choice D26, the unmoved pc its choice D14, assumption log 13). -/
def Obligations.ReferenceHookTerminatesOnlyOnCallCodeOne : Prop :=
  ∀ s : State, s.cfg.hook = .reference →
    (s.readReg 10 = 1 → ∃ t, exec .ecall s = .next t ∧ t.terminated = true ∧ t.pc = s.pc + 4 ∧
      t.regs = s.regs ∧ t.mem = s.mem) ∧
    (s.readReg 10 ≠ 1 → exec .ecall s = .fault (.unknownSystemCall (s.readReg 10)))

/-- R156: the hook as data loses no hook: every pure function of the six words to an answer is one
(the table is the model's choice, assumption log 11; purity is the spec's, D15). -/
def Obligations.EveryPureHookIsAHook : Prop :=
  ∀ f : SyscallArgs → HookAnswer, ∃ h : Hook, ∀ args, hookAnswer h args = f args

/-! ## Loading and running (41_cycle.md R110, 70_reset_and_hazards.md R204, R209) -/

/-- A word loaded at the pc is what the next cycle fetches, with every register as it was, and the pc
and the parameters as they were wherever the memory has room at the pc (the model's form of the load,
assumption log 20). -/
def Obligations.LoadedWordIsFetchedNext : Prop :=
  ∀ (s : State) (nbits w : Nat), s.mem.wf →
    (s.withFetchWord nbits w).terminated = false ∧
    fetch (s.withFetchWord nbits w) = .ok (BitVec.ofNat 32 (w % 2 ^ nbits)) ∧
    (s.withFetchWord nbits w).regs = s.regs ∧
    (InMemory s s.pc → (s.withFetchWord nbits w).pc = s.pc ∧ (s.withFetchWord nbits w).cfg = s.cfg)

/-- R209, R110: the driver's loop for at most `n` cycles ends normally in a state with `terminated`
set, or abnormally in the unchanged state before the failing cycle, or has run exactly `n` steps; it
never asks for a cycle that has no meaning. Conversely it finds an end: a state with `terminated` set
that is `k` steps away ends every loop of `k` cycles or more normally there, and a state whose step is
a fatal error ends every longer loop abnormally there. -/
def Obligations.RunsEndInExactlyTheTwoWays : Prop :=
  ∀ (n : Nat) (s : State),
    (match drive n s with
    | .normal t => t.terminated = true ∧ ∃ k, k ≤ n ∧ ReachesIn k s t
    | .abnormal e t => t.terminated = false ∧ step t = .fault e ∧ ∃ k, k < n ∧ ReachesIn k s t
    | .running t => t.terminated = false ∧ ReachesIn n s t
    | .stuck _ _ => False) ∧
    (∀ k t, k ≤ n → ReachesIn k s t → t.terminated = true → drive n s = .normal t) ∧
    (∀ k t e, k < n → ReachesIn k s t → step t = .fault e → drive n s = .abnormal e t)

/-- R110: a run can be infinite: with `jal x0, 0` at the pc every cycle retires and nothing changes
(the spec's example, derived from R120). -/
def Obligations.SelfJumpRunsForEver : Prop :=
  ∀ (n : Nat) (s : State) (w : Word), FetchesWord s w → decode s.cfg.enc w = .ok (.jal 0 0) →
    s.readReg 0 = 0 → cycle s = .retired s ∧ drive n s = .running s
end

