-- ==== Sys2Proof/Laws/ArithmeticUnits.lean ====
section
/-! SUPPORT. The arithmetic units and the operand forms, written over unbounded integers, as bit
vector operations. -/

namespace Sys2Proof.Machine

theorem truncate_toInt (v : Int) (bits : Nat) :
    (truncate v bits : Int) = v % ((2 ^ bits : Nat) : Int) := by
  unfold truncate
  exact Int.toNat_of_nonneg (Int.emod_nonneg _ (by positivity))

theorem truncate_lt (v : Int) (bits : Nat) : truncate v bits < 2 ^ bits := by
  have h := truncate_toInt v bits
  have : v % ((2 ^ bits : Nat) : Int) < ((2 ^ bits : Nat) : Int) := Int.emod_lt_of_pos _ (by positivity)
  omega

theorem truncate_natCast (n bits : Nat) : truncate n bits = n % 2 ^ bits := by
  have h := truncate_toInt n bits
  exact_mod_cast h

theorem bitMaskPrefix_eq (n : Nat) : bitMaskPrefix n = 2 ^ n - 1 := by
  simp [bitMaskPrefix, Nat.shiftLeft_eq]

/-- On a non-negative value `truncate` is the and with the mask, as the source writes it (R92). -/
theorem truncate_eq_and_mask (n bits : Nat) : truncate n bits = n &&& bitMaskPrefix bits := by
  rw [truncate_natCast, bitMaskPrefix_eq, Nat.and_two_pow_sub_one_eq_mod]

theorem trunc32_eq_ofInt (v : Int) : trunc32 v = BitVec.ofInt 32 v := by
  apply BitVec.eq_of_toNat_eq
  rw [trunc32, BitVec.toNat_ofNat, BitVec.toNat_ofInt]
  exact Nat.mod_eq_of_lt (truncate_lt v 32)

theorem sext_eq_toInt {n : Nat} (f : BitVec n) : sext f = f.toInt := by
  have hlt := f.isLt
  unfold sext toSigned
  rw [truncate_natCast, Nat.mod_eq_of_lt hlt, BitVec.toInt_eq_toNat_cond]
  rcases n with _ | n
  · have : f.toNat = 0 := by simpa using hlt
    simp [this]
  · have : 2 ^ (n + 1) = 2 * 2 ^ n := by ring
    simp only [Nat.add_sub_cancel]
    split <;> split <;> omega

theorem signedOf_eq_toInt (p : Word) : signedOf p = p.toInt := sext_eq_toInt p

/-- Adding to a register or the pc and wrapping is bit vector addition (R94). -/
theorem trunc32_unsigned_add (p : Word) (v : Int) :
    trunc32 (unsignedOf p + v) = p + BitVec.ofInt 32 v := by
  rw [trunc32_eq_ofInt, unsignedOf, BitVec.ofInt_add]
  congr 1
  simp

theorem trunc32_sext {n : Nat} (f : BitVec n) : trunc32 (sext f) = f.signExtend 32 := by
  rw [trunc32_eq_ofInt, sext_eq_toInt]; rfl

theorem trunc32_immediateI (imm : Imm12) : trunc32 (immediateI imm) = imm.signExtend 32 :=
  trunc32_sext imm

theorem advance_eq (p : Word) : trunc32 (unsignedOf p + 4) = p + 4 := trunc32_unsigned_add p 4

theorem linkAfter_eq (p : Word) : linkAfter p = p + 4 := advance_eq p

@[simp] theorem State.advancePc_pc (s : State) : s.advancePc.pc = s.pc + 4 := advance_eq s.pc

/-- The U immediate as a pattern: bits 31:12 the field, bits 11:0 zero (R67, R115). -/
theorem trunc32_upperImmediate (imm : Imm20) : trunc32 (upperImmediate imm) = imm ++ (0 : BitVec 12) := by
  apply BitVec.eq_of_toNat_eq
  have hlt := imm.isLt
  rw [trunc32_eq_ofInt, upperImmediate, BitVec.toNat_ofInt, BitVec.toNat_append]
  unfold toSigned
  rw [truncate_natCast]
  have hzero : (0 : BitVec 12).toNat = 0 := rfl
  rw [hzero, Nat.or_zero, Nat.shiftLeft_eq]
  split <;> omega

theorem ofInt_upperImmediate (imm : Imm20) :
    BitVec.ofInt 32 (upperImmediate imm) = imm ++ (0 : BitVec 12) := by
  rw [← trunc32_eq_ofInt, trunc32_upperImmediate]

theorem auipc_value_eq (p : Word) (imm : Imm20) :
    trunc32 (unsignedOf p + upperImmediate imm) = p + (imm ++ (0 : BitVec 12)) := by
  rw [trunc32_unsigned_add, ofInt_upperImmediate]

theorem State.basePlusImm_eq (s : State) (rs1 : RegIdx) (imm : Imm12) :
    s.basePlusImm rs1 imm = s.readReg rs1 + imm.signExtend 32 := by
  rw [State.basePlusImm, trunc32_unsigned_add, ← trunc32_eq_ofInt, trunc32_immediateI]

theorem ofInt_displacementJ (offset : Imm20) :
    BitVec.ofInt 32 (displacementJ offset) = offset.signExtend 32 * 2 := by
  rw [displacementJ, BitVec.ofInt_mul, ← trunc32_eq_ofInt, trunc32_sext]; rfl

theorem ofInt_displacementB (offset : Imm12) :
    BitVec.ofInt 32 (displacementB offset) = offset.signExtend 32 * 2 := by
  rw [displacementB, BitVec.ofInt_mul, ← trunc32_eq_ofInt, trunc32_sext]; rfl

theorem State.jumpTarget_eq (s : State) (offset : Imm20) :
    s.jumpTarget offset = s.pc + offset.signExtend 32 * 2 := by
  rw [State.jumpTarget, trunc32_unsigned_add, ofInt_displacementJ]

theorem State.branchTarget_eq (s : State) (offset : Imm12) :
    s.branchTarget offset = s.pc + offset.signExtend 32 * 2 := by
  rw [State.branchTarget, trunc32_unsigned_add, ofInt_displacementB]

theorem lessSigned_eq_slt (x : Word) (imm : Imm12) :
    lessSigned x imm = x.slt (imm.signExtend 32) := by
  rw [lessSigned, signedOf_eq_toInt, immediateI, sext_eq_toInt, BitVec.slt_eq_decide,
    BitVec.toInt_signExtend_of_le (by decide)]

theorem lessUnsigned_eq_ult (x : Word) (imm : Imm12) :
    lessUnsigned x imm = x.ult (imm.signExtend 32) := by
  rw [lessUnsigned, trunc32_immediateI, unsignedOf, unsignedOf, BitVec.ult]
  simp

end Sys2Proof.Machine
end

