-- ==== Sys2Proof/Laws/WellFormed.lean ====
section
/-! SUPPORT. What the well-formedness checks give a proof. -/

namespace Sys2Proof

/-- The inequalities R8 and D3 ask of the opcode and funct3 values, one field each. -/
structure Encoding.Distinct (e : Encoding) : Prop where
  auipc_lui : e.opcAuipc ≠ e.opcLui
  jal_lui : e.opcJal ≠ e.opcLui
  jal_auipc : e.opcJal ≠ e.opcAuipc
  jalr_lui : e.opcJalr ≠ e.opcLui
  jalr_auipc : e.opcJalr ≠ e.opcAuipc
  jalr_jal : e.opcJalr ≠ e.opcJal
  branch_lui : e.opcBranch ≠ e.opcLui
  branch_auipc : e.opcBranch ≠ e.opcAuipc
  branch_jal : e.opcBranch ≠ e.opcJal
  branch_jalr : e.opcBranch ≠ e.opcJalr
  load_lui : e.opcLoad ≠ e.opcLui
  load_auipc : e.opcLoad ≠ e.opcAuipc
  load_jal : e.opcLoad ≠ e.opcJal
  load_jalr : e.opcLoad ≠ e.opcJalr
  load_branch : e.opcLoad ≠ e.opcBranch
  imm_lui : e.opcImm ≠ e.opcLui
  imm_auipc : e.opcImm ≠ e.opcAuipc
  imm_jal : e.opcImm ≠ e.opcJal
  imm_jalr : e.opcImm ≠ e.opcJalr
  imm_branch : e.opcImm ≠ e.opcBranch
  imm_load : e.opcImm ≠ e.opcLoad
  system_lui : e.opcSystem ≠ e.opcLui
  system_auipc : e.opcSystem ≠ e.opcAuipc
  system_jal : e.opcSystem ≠ e.opcJal
  system_jalr : e.opcSystem ≠ e.opcJalr
  system_branch : e.opcSystem ≠ e.opcBranch
  system_load : e.opcSystem ≠ e.opcLoad
  system_imm : e.opcSystem ≠ e.opcImm
  bne_beq : e.f3Bne ≠ e.f3Beq
  slti_addi : e.f3Slti ≠ e.f3Addi
  sltiu_addi : e.f3Sltiu ≠ e.f3Addi
  sltiu_slti : e.f3Sltiu ≠ e.f3Slti

theorem Encoding.wf_distinct {e : Encoding} (h : e.wf = true) : e.Distinct := by
  simp only [Encoding.wf, Encoding.opcodesDistinct, Encoding.functsDistinct, Encoding.opcodes,
    Bool.and_eq_true, decide_eq_true_eq, List.nodup_cons, List.mem_cons, List.not_mem_nil,
    or_false, not_or] at h
  obtain ⟨⟨⟨⟨_, _, _, _, _, _, _⟩, ⟨_, _, _, _, _, _⟩, ⟨_, _, _, _, _⟩, ⟨_, _, _, _⟩, ⟨_, _, _⟩,
    ⟨_, _⟩, _, _⟩, _⟩, ⟨_, _⟩, ⟨_, _⟩, _, _⟩ := h
  constructor <;> (apply Ne.symm; assumption)

/-- The class the decoder finds for a class's own opcode value (R73). -/
theorem classOf_opcode {e : Encoding} (h : e.wf = true) (c : OpClass) :
    classOf e (e.opcode c) = some c := by
  have d := Encoding.wf_distinct h
  cases c <;>
    simp [classOf, Encoding.opcode, d.auipc_lui, d.jal_lui, d.jal_auipc, d.jalr_lui, d.jalr_auipc,
      d.jalr_jal, d.branch_lui, d.branch_auipc, d.branch_jal, d.branch_jalr, d.load_lui,
      d.load_auipc, d.load_jal, d.load_jalr, d.load_branch, d.imm_lui, d.imm_auipc, d.imm_jal,
      d.imm_jalr, d.imm_branch, d.imm_load, d.system_lui, d.system_auipc, d.system_jal,
      d.system_jalr, d.system_branch, d.system_load, d.system_imm]

/-- A class is found only under its own opcode value (R73). -/
theorem opcode_of_classOf {e : Encoding} {op : Opcode} {c : OpClass} (h : classOf e op = some c) :
    e.opcode c = op := by
  unfold classOf at h
  repeat' split at h
  all_goals first | (cases h; simp_all [Encoding.opcode]) | cases h

/-- No class is found exactly for an opcode outside the eight values (R74). -/
theorem classOf_eq_none {e : Encoding} {op : Opcode} : classOf e op = none ↔ op ∉ e.opcodes := by
  unfold classOf Encoding.opcodes
  repeat' split
  all_goals simp_all

theorem Encoding.zero_not_mem {e : Encoding} (h : e.wf = true) : (0 : Opcode) ∉ e.opcodes := by
  simp only [Encoding.wf, Encoding.opcodesNonzero, Bool.and_eq_true, List.all_eq_true] at h
  intro hm
  simpa using h.1.2 0 hm

theorem Config.wf_enc {c : Config} (h : c.wf = true) : c.enc.wf = true := by
  simp only [Config.wf, Bool.and_eq_true] at h
  exact h.1.1

end Sys2Proof
end

