-- ==== Sys2Proof/Laws/Decode.lean ====
section
/-! SUPPORT. The bits of the words the encoder writes, the fields the decoder reads back from them,
the words rebuilt from their fields, and the decoder's case analysis. -/

namespace Sys2Proof

/-! ## Bits of an encoded word (R62 to R65) -/

theorem getLsbD_encodeU (op : Opcode) (rd : RegIdx) (imm : Imm20) (j : Nat) :
    (encodeU op rd imm).getLsbD j =
      if j < 7 then op.getLsbD j else if j < 12 then rd.getLsbD (j - 7)
      else imm.getLsbD (j - 12) := by
  change ((imm ++ rd ++ op : BitVec (20 + 5 + 7)).getLsbD j) = _
  simp only [BitVec.getLsbD_append]
  repeat' split
  all_goals first | rfl | omega

theorem getLsbD_encodeI (op : Opcode) (rd : RegIdx) (f3 : Funct3) (rs1 : RegIdx) (imm : Imm12)
    (j : Nat) :
    (encodeI op rd f3 rs1 imm).getLsbD j =
      if j < 7 then op.getLsbD j else if j < 12 then rd.getLsbD (j - 7)
      else if j < 15 then f3.getLsbD (j - 12) else if j < 20 then rs1.getLsbD (j - 15)
      else imm.getLsbD (j - 20) := by
  change ((imm ++ rs1 ++ f3 ++ rd ++ op : BitVec (12 + 5 + 3 + 5 + 7)).getLsbD j) = _
  simp only [BitVec.getLsbD_append]
  repeat' split
  all_goals first | rfl | omega

theorem getLsbD_encodeJ (op : Opcode) (rd : RegIdx) (off : Imm20) (j : Nat) (hj : j < 32) :
    (encodeJ op rd off).getLsbD j =
      if j < 7 then op.getLsbD j else if j < 12 then rd.getLsbD (j - 7)
      else if j < 20 then off.getLsbD (j - 12 + 11) else if j < 21 then off.getLsbD 10
      else if j < 31 then off.getLsbD (j - 21) else off.getLsbD 19 := by
  change ((off.extractLsb' 19 1 ++ off.extractLsb' 0 10 ++ off.extractLsb' 10 1 ++
    off.extractLsb' 11 8 ++ rd ++ op : BitVec (1 + 10 + 1 + 8 + 5 + 7)).getLsbD j) = _
  simp only [BitVec.getLsbD_append, BitVec.getLsbD_extractLsb']
  interval_cases j <;> simp

theorem getLsbD_encodeB (op : Opcode) (f3 : Funct3) (rs1 rs2 : RegIdx) (off : Imm12) (j : Nat)
    (hj : j < 32) :
    (encodeB op f3 rs1 rs2 off).getLsbD j =
      if j < 7 then op.getLsbD j else if j < 8 then off.getLsbD 10
      else if j < 12 then off.getLsbD (j - 8) else if j < 15 then f3.getLsbD (j - 12)
      else if j < 20 then rs1.getLsbD (j - 15) else if j < 25 then rs2.getLsbD (j - 20)
      else if j < 31 then off.getLsbD (j - 25 + 4) else off.getLsbD 11 := by
  change ((off.extractLsb' 11 1 ++ off.extractLsb' 4 6 ++ rs2 ++ rs1 ++ f3 ++
    off.extractLsb' 0 4 ++ off.extractLsb' 10 1 ++ op :
      BitVec (1 + 6 + 5 + 5 + 3 + 4 + 1 + 7)).getLsbD j) = _
  simp only [BitVec.getLsbD_append, BitVec.getLsbD_extractLsb']
  interval_cases j <;> simp

/-! ## Bits of the scattered offsets (R68, R69) -/

theorem getLsbD_offsetJOf (w : Word) (j : Nat) (hj : j < 20) :
    (offsetJOf w).getLsbD j =
      if j < 10 then w.getLsbD (21 + j) else if j < 11 then w.getLsbD 20
      else if j < 19 then w.getLsbD (12 + (j - 11)) else w.getLsbD 31 := by
  change ((w.extractLsb' 31 1 ++ w.extractLsb' 12 8 ++ w.extractLsb' 20 1 ++ w.extractLsb' 21 10 :
    BitVec (1 + 8 + 1 + 10)).getLsbD j) = _
  simp only [BitVec.getLsbD_append, BitVec.getLsbD_extractLsb']
  interval_cases j <;> simp

theorem getLsbD_offsetBOf (w : Word) (j : Nat) (hj : j < 12) :
    (offsetBOf w).getLsbD j =
      if j < 4 then w.getLsbD (8 + j) else if j < 10 then w.getLsbD (25 + (j - 4))
      else if j < 11 then w.getLsbD 7 else w.getLsbD 31 := by
  change ((w.extractLsb' 31 1 ++ w.extractLsb' 7 1 ++ w.extractLsb' 25 6 ++ w.extractLsb' 8 4 :
    BitVec (1 + 1 + 6 + 4)).getLsbD j) = _
  simp only [BitVec.getLsbD_append, BitVec.getLsbD_extractLsb']
  interval_cases j <;> simp

/-! ## Fields read back -/

/-- Two fields with the same bits below their width are the same. -/
theorem eq_of_bits {n : Nat} {x y : BitVec n} (h : ∀ i < n, x.getLsbD i = y.getLsbD i) : x = y :=
  BitVec.eq_of_getLsbD_eq h

theorem opcodeOf_encodeU (op : Opcode) (rd : RegIdx) (imm : Imm20) :
    opcodeOf (encodeU op rd imm) = op := by
  apply eq_of_bits; intro i hi
  rw [opcodeOf, BitVec.getLsbD_extractLsb', getLsbD_encodeU]
  interval_cases i <;> simp

theorem rdOf_encodeU (op : Opcode) (rd : RegIdx) (imm : Imm20) :
    rdOf (encodeU op rd imm) = rd := by
  apply eq_of_bits; intro i hi
  rw [rdOf, BitVec.getLsbD_extractLsb', getLsbD_encodeU]
  interval_cases i <;> simp

theorem immUOf_encodeU (op : Opcode) (rd : RegIdx) (imm : Imm20) :
    immUOf (encodeU op rd imm) = imm := by
  apply eq_of_bits; intro i hi
  rw [immUOf, BitVec.getLsbD_extractLsb', getLsbD_encodeU]
  interval_cases i <;> simp

theorem opcodeOf_encodeI (op : Opcode) (rd : RegIdx) (f3 : Funct3) (rs1 : RegIdx) (imm : Imm12) :
    opcodeOf (encodeI op rd f3 rs1 imm) = op := by
  apply eq_of_bits; intro i hi
  rw [opcodeOf, BitVec.getLsbD_extractLsb', getLsbD_encodeI]
  interval_cases i <;> simp

theorem rdOf_encodeI (op : Opcode) (rd : RegIdx) (f3 : Funct3) (rs1 : RegIdx) (imm : Imm12) :
    rdOf (encodeI op rd f3 rs1 imm) = rd := by
  apply eq_of_bits; intro i hi
  rw [rdOf, BitVec.getLsbD_extractLsb', getLsbD_encodeI]
  interval_cases i <;> simp

theorem funct3Of_encodeI (op : Opcode) (rd : RegIdx) (f3 : Funct3) (rs1 : RegIdx) (imm : Imm12) :
    funct3Of (encodeI op rd f3 rs1 imm) = f3 := by
  apply eq_of_bits; intro i hi
  rw [funct3Of, BitVec.getLsbD_extractLsb', getLsbD_encodeI]
  interval_cases i <;> simp

theorem rs1Of_encodeI (op : Opcode) (rd : RegIdx) (f3 : Funct3) (rs1 : RegIdx) (imm : Imm12) :
    rs1Of (encodeI op rd f3 rs1 imm) = rs1 := by
  apply eq_of_bits; intro i hi
  rw [rs1Of, BitVec.getLsbD_extractLsb', getLsbD_encodeI]
  interval_cases i <;> simp

theorem immIOf_encodeI (op : Opcode) (rd : RegIdx) (f3 : Funct3) (rs1 : RegIdx) (imm : Imm12) :
    immIOf (encodeI op rd f3 rs1 imm) = imm := by
  apply eq_of_bits; intro i hi
  rw [immIOf, BitVec.getLsbD_extractLsb', getLsbD_encodeI]
  interval_cases i <;> simp

theorem opcodeOf_encodeJ (op : Opcode) (rd : RegIdx) (off : Imm20) :
    opcodeOf (encodeJ op rd off) = op := by
  apply eq_of_bits; intro i hi
  rw [opcodeOf, BitVec.getLsbD_extractLsb', getLsbD_encodeJ _ _ _ _ (by omega)]
  interval_cases i <;> simp

theorem rdOf_encodeJ (op : Opcode) (rd : RegIdx) (off : Imm20) : rdOf (encodeJ op rd off) = rd := by
  apply eq_of_bits; intro i hi
  rw [rdOf, BitVec.getLsbD_extractLsb', getLsbD_encodeJ _ _ _ _ (by omega)]
  interval_cases i <;> simp

theorem offsetJOf_encodeJ (op : Opcode) (rd : RegIdx) (off : Imm20) :
    offsetJOf (encodeJ op rd off) = off := by
  apply eq_of_bits; intro i hi
  rw [getLsbD_offsetJOf _ _ hi]
  interval_cases i <;> simp (disch := decide) only [getLsbD_encodeJ, Nat.reduceAdd,
    Nat.reduceSub, Nat.reduceLT, reduceIte]

theorem opcodeOf_encodeB (op : Opcode) (f3 : Funct3) (rs1 rs2 : RegIdx) (off : Imm12) :
    opcodeOf (encodeB op f3 rs1 rs2 off) = op := by
  apply eq_of_bits; intro i hi
  rw [opcodeOf, BitVec.getLsbD_extractLsb', getLsbD_encodeB _ _ _ _ _ _ (by omega)]
  interval_cases i <;> simp

theorem funct3Of_encodeB (op : Opcode) (f3 : Funct3) (rs1 rs2 : RegIdx) (off : Imm12) :
    funct3Of (encodeB op f3 rs1 rs2 off) = f3 := by
  apply eq_of_bits; intro i hi
  rw [funct3Of, BitVec.getLsbD_extractLsb', getLsbD_encodeB _ _ _ _ _ _ (by omega)]
  interval_cases i <;> simp

theorem rs1Of_encodeB (op : Opcode) (f3 : Funct3) (rs1 rs2 : RegIdx) (off : Imm12) :
    rs1Of (encodeB op f3 rs1 rs2 off) = rs1 := by
  apply eq_of_bits; intro i hi
  rw [rs1Of, BitVec.getLsbD_extractLsb', getLsbD_encodeB _ _ _ _ _ _ (by omega)]
  interval_cases i <;> simp

theorem rs2Of_encodeB (op : Opcode) (f3 : Funct3) (rs1 rs2 : RegIdx) (off : Imm12) :
    rs2Of (encodeB op f3 rs1 rs2 off) = rs2 := by
  apply eq_of_bits; intro i hi
  rw [rs2Of, BitVec.getLsbD_extractLsb', getLsbD_encodeB _ _ _ _ _ _ (by omega)]
  interval_cases i <;> simp

theorem offsetBOf_encodeB (op : Opcode) (f3 : Funct3) (rs1 rs2 : RegIdx) (off : Imm12) :
    offsetBOf (encodeB op f3 rs1 rs2 off) = off := by
  apply eq_of_bits; intro i hi
  rw [getLsbD_offsetBOf _ _ hi]
  interval_cases i <;> simp (disch := decide) only [getLsbD_encodeB, Nat.reduceAdd,
    Nat.reduceSub, Nat.reduceLT, reduceIte]

/-! ## Words rebuilt from their fields -/

theorem encodeU_fields (w : Word) : encodeU (opcodeOf w) (rdOf w) (immUOf w) = w := by
  apply eq_of_bits; intro i hi
  rw [getLsbD_encodeU]
  interval_cases i <;> simp [opcodeOf, rdOf, immUOf]

theorem encodeI_fields (w : Word) :
    encodeI (opcodeOf w) (rdOf w) (funct3Of w) (rs1Of w) (immIOf w) = w := by
  apply eq_of_bits; intro i hi
  rw [getLsbD_encodeI]
  interval_cases i <;> simp [opcodeOf, rdOf, funct3Of, rs1Of, immIOf]

theorem encodeJ_fields (w : Word) : encodeJ (opcodeOf w) (rdOf w) (offsetJOf w) = w := by
  apply eq_of_bits; intro i hi
  rw [getLsbD_encodeJ _ _ _ _ hi]
  interval_cases i <;> simp (disch := decide) only [opcodeOf, rdOf, getLsbD_offsetJOf,
    BitVec.getLsbD_extractLsb', Nat.reduceAdd, Nat.reduceSub, Nat.reduceLT, reduceIte,
    decide_true, Bool.true_and]

theorem encodeB_fields (w : Word) :
    encodeB (opcodeOf w) (funct3Of w) (rs1Of w) (rs2Of w) (offsetBOf w) = w := by
  apply eq_of_bits; intro i hi
  rw [getLsbD_encodeB _ _ _ _ _ _ hi]
  interval_cases i <;> simp (disch := decide) only [opcodeOf, funct3Of, rs1Of, rs2Of,
    getLsbD_offsetBOf, BitVec.getLsbD_extractLsb', Nat.reduceAdd, Nat.reduceSub, Nat.reduceLT,
    reduceIte, decide_true, Bool.true_and]

/-! ## The decoder's cases (R73 to R75) -/

/-- A word of a class decodes to the selection from that class's record (R73). -/
theorem decode_of_class {e : Encoding} (h : e.wf = true) {w : Word} {c : OpClass}
    (hw : opcodeOf w = e.opcode c) : decode e w = select e (recordOf w c) := by
  simp [decode, decodeRecord, hw, classOf_opcode h c]

/-- A decoded word has the opcode of a class, and the instruction is that class's selection. -/
theorem decode_ok_class {e : Encoding} {w : Word} {i : Instr} (h : decode e w = .ok i) :
    ∃ c, classOf e (opcodeOf w) = some c ∧ select e (recordOf w c) = .ok i := by
  unfold decode decodeRecord at h
  cases hc : classOf e (opcodeOf w) with
  | none => simp [hc] at h
  | some c => exact ⟨c, rfl, by simpa [hc] using h⟩

/-- An error of the decoder is an unknown opcode, or comes from the selection of a known class. -/
theorem decode_error_cases {e : Encoding} {w : Word} {r : Reject} (h : decode e w = .error r) :
    (opcodeOf w ∉ e.opcodes ∧ r = .unimplementedOpcode (opcodeOf w)) ∨
      ∃ c, classOf e (opcodeOf w) = some c ∧ select e (recordOf w c) = .error r := by
  unfold decode decodeRecord at h
  cases hc : classOf e (opcodeOf w) with
  | none => exact .inl ⟨classOf_eq_none.1 hc, by simpa [hc] using h.symm⟩
  | some c => exact .inr ⟨c, rfl, by simpa [hc] using h⟩

/-- What a selection can refuse: a funct value of BRANCH, IMM, LOAD or SYSTEM (R75). -/
theorem select_error_cases {e : Encoding} {d : Decoded} {r : Reject} (h : select e d = .error r) :
    (∃ off f3 rs1 rs2, d = .branch off f3 rs1 rs2 ∧ f3 ≠ e.f3Beq ∧ f3 ≠ e.f3Bne ∧
        r = .unimplementedFunct .branch f3.toNat) ∨
    (∃ rd f3 rs1 imm, d = .imm rd f3 rs1 imm ∧ f3 ≠ e.f3Addi ∧ f3 ≠ e.f3Slti ∧ f3 ≠ e.f3Sltiu ∧
        r = .unimplementedFunct .imm f3.toNat) ∨
    (∃ rd f3 rs1 imm, d = .load rd f3 rs1 imm ∧ f3 ≠ e.f3Lw ∧
        r = .unimplementedFunct .load f3.toNat) ∨
    (∃ f12, d = .system f12 ∧ f12 ≠ 0 ∧ r = .unimplementedFunct .system f12.toNat) := by
  cases d <;> simp only [select] at h
  case branch off f3 rs1 rs2 =>
    split at h; · cases h
    split at h; · cases h
    cases h; exact .inl ⟨_, _, _, _, rfl, ‹_›, ‹_›, rfl⟩
  case imm rd f3 rs1 imm =>
    split at h; · cases h
    split at h; · cases h
    split at h; · cases h
    cases h; exact .inr (.inl ⟨_, _, _, _, rfl, ‹_›, ‹_›, ‹_›, rfl⟩)
  case load rd f3 rs1 imm =>
    split at h; · cases h
    cases h; exact .inr (.inr (.inl ⟨_, _, _, _, rfl, ‹_›, rfl⟩))
  case system f12 =>
    split at h; · cases h
    cases h; exact .inr (.inr (.inr ⟨_, rfl, ‹_›, rfl⟩))
  all_goals cases h

/-- An opcode outside the eight is refused with that opcode (R74). -/
theorem decode_unknown {e : Encoding} {w : Word} (h : opcodeOf w ∉ e.opcodes) :
    decode e w = .error (.unimplementedOpcode (opcodeOf w)) := by
  simp [decode, decodeRecord, classOf_eq_none.2 h]

end Sys2Proof
end

