-- ==== Sys2Proof/Laws/Memory.lean ====
section
/-! SUPPORT. Reads, writes and the canonical form of the flat memory (spec 20_memory.md R41 to R48). -/

namespace Sys2Proof.Machine

/-! ## One byte -/

theorem Memory.readByte_consByte (a : Nat) (v : Byte) (rest : Memory) (b : Nat) :
    (Memory.consByte a v rest).readByte b =
      if v = unlistedByte then rest.readByte b else if b = a then v else rest.readByte b := by
  unfold Memory.consByte
  split <;> simp [Memory.readByte]

/-- An address no entry lists reads as the unlisted byte. -/
theorem Memory.readByte_unlisted {m : Memory} {a : Nat} (h : ∀ c ∈ m, c.1 ≠ a) :
    m.readByte a = unlistedByte := by
  induction m with
  | nil => rfl
  | cons c m ih =>
    have hc : a ≠ c.1 := fun e => h c (by simp) e.symm
    rw [Memory.readByte, if_neg hc]
    exact ih fun d hd => h d (by simp [hd])

/-- A write leaves every other byte alone. -/
theorem Memory.readByte_writeByte_other (m : Memory) {a b : Nat} (v : Byte) (h : b ≠ a) :
    (m.writeByte a v).readByte b = m.readByte b := by
  induction m with
  | nil => simp [Memory.writeByte, Memory.readByte_consByte, h]
  | cons c m ih =>
    rw [Memory.writeByte]
    split
    · simp [Memory.readByte_consByte, h]
    · split
      · have hc : b ≠ c.1 := by omega
        simp [Memory.readByte_consByte, Memory.readByte, h, hc]
      · simp [Memory.readByte, ih]

/-- A read after a write to the same byte gives the value written. -/
theorem Memory.readByte_writeByte_same {m : Memory} (hm : m.wf) (a : Nat) (v : Byte) :
    (m.writeByte a v).readByte a = v := by
  obtain ⟨hs, -⟩ := hm
  induction m with
  | nil =>
    rw [Memory.writeByte, Memory.readByte_consByte]
    split
    · rename_i h; rw [h]; rfl
    · simp
  | cons c m ih =>
    obtain ⟨hc, hs⟩ := List.pairwise_cons.1 hs
    rw [Memory.writeByte]
    split
    · rename_i hlt
      rw [Memory.readByte_consByte]
      split
      · rename_i hv
        rw [hv]
        apply Memory.readByte_unlisted
        intro d hd
        rcases List.mem_cons.1 hd with rfl | hd
        · omega
        · have := hc d hd; omega
      · simp
    · split
      · rename_i heq
        rw [Memory.readByte_consByte]
        split
        · rename_i hv
          rw [hv]
          apply Memory.readByte_unlisted
          intro d hd
          have := hc d hd; omega
        · simp
      · rename_i hne
        rw [Memory.readByte, if_neg hne]
        exact ih hs

/-! ## The canonical form -/

theorem Memory.mem_consByte {a : Nat} {v : Byte} {rest : Memory} {c : Host.Cell}
    (h : c ∈ Memory.consByte a v rest) : (c = (a, v) ∧ v ≠ unlistedByte) ∨ c ∈ rest := by
  unfold Memory.consByte at h
  split at h
  · exact .inr h
  · rcases List.mem_cons.1 h with h | h
    · exact .inl ⟨h, ‹_›⟩
    · exact .inr h

/-- An entry of a written memory is the written byte or an entry from before. -/
theorem Memory.mem_writeByte {m : Memory} {a : Nat} {v : Byte} {c : Host.Cell}
    (h : c ∈ m.writeByte a v) : (c = (a, v) ∧ v ≠ unlistedByte) ∨ c ∈ m := by
  induction m with
  | nil => exact (Memory.mem_consByte h).imp_right id
  | cons d m ih =>
    rw [Memory.writeByte] at h
    split at h
    · exact Memory.mem_consByte h
    · split at h
      · exact (Memory.mem_consByte h).imp_right (List.mem_cons_of_mem _)
      · rcases List.mem_cons.1 h with rfl | h
        · exact .inr (by simp)
        · exact (ih h).imp_right (List.mem_cons_of_mem _)

theorem Memory.pairwise_consByte {a : Nat} {v : Byte} {rest : Memory}
    (hs : rest.Pairwise (fun c d => c.1 < d.1)) (ha : ∀ c ∈ rest, a < c.1) :
    (Memory.consByte a v rest).Pairwise (fun c d => c.1 < d.1) := by
  unfold Memory.consByte
  split
  · exact hs
  · exact List.pairwise_cons.2 ⟨ha, hs⟩

theorem Memory.pairwise_writeByte {m : Memory} (a : Nat) (v : Byte)
    (hs : m.Pairwise (fun c d => c.1 < d.1)) :
    (m.writeByte a v).Pairwise (fun c d => c.1 < d.1) := by
  induction m with
  | nil => exact Memory.pairwise_consByte hs (by simp)
  | cons d m ih =>
    obtain ⟨hd, hm⟩ := List.pairwise_cons.1 hs
    rw [Memory.writeByte]
    split
    · refine Memory.pairwise_consByte hs fun c hc => ?_
      rcases List.mem_cons.1 hc with rfl | hc
      · assumption
      · have := hd c hc; omega
    · split
      · rename_i heq
        exact Memory.pairwise_consByte hm fun c hc => heq ▸ hd c hc
      · refine List.pairwise_cons.2 ⟨fun c hc => ?_, ih hm⟩
        rcases Memory.mem_writeByte hc with ⟨rfl, -⟩ | hc
        · show d.1 < a
          omega
        · exact hd c hc

/-- A write keeps the canonical form. -/
theorem Memory.wf_writeByte {m : Memory} (hm : m.wf) (a : Nat) (v : Byte) : (m.writeByte a v).wf :=
  ⟨Memory.pairwise_writeByte a v hm.1, fun c hc => by
    rcases Memory.mem_writeByte hc with ⟨rfl, hv⟩ | hc
    · exact hv
    · exact hm.2 c hc⟩

/-- A write inside a region keeps the memory inside it. -/
theorem Memory.within_writeByte {m : Memory} {start size a : Nat} (hm : m.within start size)
    (h : start ≤ a ∧ a < start + size) (v : Byte) : (m.writeByte a v).within start size :=
  fun c hc => by
    rcases Memory.mem_writeByte hc with ⟨rfl, -⟩ | hc
    · exact h
    · exact hm c hc

/-! ## One word -/

theorem Memory.wf_writeWord {m : Memory} (hm : m.wf) (a : Nat) (v : Word) : (m.writeWord a v).wf :=
  Memory.wf_writeByte (Memory.wf_writeByte (Memory.wf_writeByte (Memory.wf_writeByte hm _ _) _ _) _ _)
    _ _

theorem Memory.within_writeWord {m : Memory} {start size a : Nat} (hm : m.within start size)
    (h : start ≤ a ∧ a + 3 < start + size) (v : Word) : (m.writeWord a v).within start size :=
  Memory.within_writeByte (Memory.within_writeByte (Memory.within_writeByte
    (Memory.within_writeByte hm (by omega) _) (by omega) _) (by omega) _) (by omega) _

/-- A word write leaves every byte outside its four alone (R42). -/
theorem Memory.readByte_writeWord_other (m : Memory) {a b : Nat} (v : Word)
    (h : b < a ∨ a + 3 < b) : (m.writeWord a v).readByte b = m.readByte b := by
  unfold Memory.writeWord
  rw [Memory.readByte_writeByte_other _ _ (by omega), Memory.readByte_writeByte_other _ _ (by omega),
    Memory.readByte_writeByte_other _ _ (by omega), Memory.readByte_writeByte_other _ _ (by omega)]

/-- The four bytes of a word write (R42). -/
theorem Memory.readByte_writeWord_same {m : Memory} (hm : m.wf) (a : Nat) (v : Word) :
    (m.writeWord a v).readByte a = byteOf v 0 ∧ (m.writeWord a v).readByte (a + 1) = byteOf v 1 ∧
      (m.writeWord a v).readByte (a + 2) = byteOf v 2 ∧
      (m.writeWord a v).readByte (a + 3) = byteOf v 3 := by
  have h1 := Memory.wf_writeByte hm a (byteOf v 0)
  have h2 := Memory.wf_writeByte h1 (a + 1) (byteOf v 1)
  have h3 := Memory.wf_writeByte h2 (a + 2) (byteOf v 2)
  unfold Memory.writeWord
  refine ⟨?_, ?_, ?_, Memory.readByte_writeByte_same h3 _ _⟩
  · rw [Memory.readByte_writeByte_other _ _ (by omega),
      Memory.readByte_writeByte_other _ _ (by omega),
      Memory.readByte_writeByte_other _ _ (by omega), Memory.readByte_writeByte_same hm]
  · rw [Memory.readByte_writeByte_other _ _ (by omega),
      Memory.readByte_writeByte_other _ _ (by omega), Memory.readByte_writeByte_same h1]
  · rw [Memory.readByte_writeByte_other _ _ (by omega), Memory.readByte_writeByte_same h2]

/-- Bit `j` of a word built from four bytes: bit `j mod 8` of byte `j / 8` (R41). -/
theorem getLsbD_wordOfBytes (b0 b1 b2 b3 : Byte) (j : Nat) :
    (wordOfBytes b0 b1 b2 b3).getLsbD j =
      if j < 8 then b0.getLsbD j else if j < 16 then b1.getLsbD (j - 8)
      else if j < 24 then b2.getLsbD (j - 16) else b3.getLsbD (j - 24) := by
  change ((b3 ++ b2 ++ b1 ++ b0 : BitVec (8 + 8 + 8 + 8)).getLsbD j) = _
  simp only [BitVec.getLsbD_append]
  repeat' split
  all_goals first | rfl | omega

theorem wordOfBytes_byteOf (v : Word) :
    wordOfBytes (byteOf v 0) (byteOf v 1) (byteOf v 2) (byteOf v 3) = v := by
  apply BitVec.eq_of_getLsbD_eq; intro i hi
  rw [getLsbD_wordOfBytes]
  interval_cases i <;> simp [byteOf]

/-! ## The bounds check and the two operations of the interface -/

theorem inBounds_iff (c : Config) (a : Word) :
    inBounds c a = true ↔ c.memStart ≤ a.toNat ∧ a.toNat + 3 < c.memStart + c.memSize := by
  simp only [inBounds, Bool.not_eq_true', Bool.or_eq_false_iff, decide_eq_false_iff_not]
  omega

/-- Everything `memRead` can do (R41). -/
theorem memRead_cases (s : State) (a : Word) :
    (inBounds s.cfg a = true ∧ memRead s a = .ok (s.mem.readWord a.toNat)) ∨
      (inBounds s.cfg a = false ∧ memRead s a = .error (.memoryBoundsError a)) := by
  unfold memRead
  cases h : inBounds s.cfg a <;> simp

/-- Everything `memWrite` can do (R42). -/
theorem memWrite_cases (s : State) (v a : Word) :
    (inBounds s.cfg a = true ∧
        memWrite s v a = .ok { s with mem := s.mem.writeWord a.toNat v }) ∨
      (inBounds s.cfg a = false ∧ memWrite s v a = .error (.memoryBoundsError a)) := by
  unfold memWrite
  cases h : inBounds s.cfg a <;> simp

end Sys2Proof.Machine
end

