-- ==== Sys2Proof/Laws/State.lean ====
section
/-! SUPPORT. One lemma per field of State and update of it. -/

namespace Sys2Proof.Machine

@[simp] theorem State.setPc_pc (s : State) (t : Word) : (s.setPc t).pc = t := rfl
@[simp] theorem State.setPc_regs (s : State) (t : Word) : (s.setPc t).regs = s.regs := rfl
@[simp] theorem State.setPc_mem (s : State) (t : Word) : (s.setPc t).mem = s.mem := rfl
@[simp] theorem State.setPc_terminated (s : State) (t : Word) :
    (s.setPc t).terminated = s.terminated := rfl
@[simp] theorem State.setPc_cfg (s : State) (t : Word) : (s.setPc t).cfg = s.cfg := rfl
@[simp] theorem State.setPc_readReg (s : State) (t : Word) (r : RegIdx) :
    (s.setPc t).readReg r = s.readReg r := rfl

@[simp] theorem State.advancePc_regs (s : State) : s.advancePc.regs = s.regs := rfl
@[simp] theorem State.advancePc_mem (s : State) : s.advancePc.mem = s.mem := rfl
@[simp] theorem State.advancePc_terminated (s : State) :
    s.advancePc.terminated = s.terminated := rfl
@[simp] theorem State.advancePc_cfg (s : State) : s.advancePc.cfg = s.cfg := rfl
@[simp] theorem State.advancePc_readReg (s : State) (r : RegIdx) :
    s.advancePc.readReg r = s.readReg r := rfl

@[simp] theorem State.enforceX0_pc (s : State) : s.enforceX0.pc = s.pc := rfl
@[simp] theorem State.enforceX0_regs (s : State) : s.enforceX0.regs = s.regs.set 0 0 := rfl
@[simp] theorem State.enforceX0_mem (s : State) : s.enforceX0.mem = s.mem := rfl
@[simp] theorem State.enforceX0_terminated (s : State) :
    s.enforceX0.terminated = s.terminated := rfl
@[simp] theorem State.enforceX0_cfg (s : State) : s.enforceX0.cfg = s.cfg := rfl

@[simp] theorem State.setTerminated_pc (s : State) : s.setTerminated.pc = s.pc := rfl
@[simp] theorem State.setTerminated_regs (s : State) : s.setTerminated.regs = s.regs := rfl
@[simp] theorem State.setTerminated_mem (s : State) : s.setTerminated.mem = s.mem := rfl
@[simp] theorem State.setTerminated_terminated (s : State) :
    s.setTerminated.terminated = true := rfl
@[simp] theorem State.setTerminated_cfg (s : State) : s.setTerminated.cfg = s.cfg := rfl
@[simp] theorem State.setTerminated_readReg (s : State) (r : RegIdx) :
    s.setTerminated.readReg r = s.readReg r := rfl

/-- A write to `x0` changes nothing (R107). -/
@[simp] theorem State.writeReg_zero (s : State) (v : Word) : s.writeReg 0 v = s := rfl

@[simp] theorem State.writeReg_pc (s : State) (i : RegIdx) (v : Word) :
    (s.writeReg i v).pc = s.pc := by unfold State.writeReg; split <;> rfl
@[simp] theorem State.writeReg_mem (s : State) (i : RegIdx) (v : Word) :
    (s.writeReg i v).mem = s.mem := by unfold State.writeReg; split <;> rfl
@[simp] theorem State.writeReg_terminated (s : State) (i : RegIdx) (v : Word) :
    (s.writeReg i v).terminated = s.terminated := by unfold State.writeReg; split <;> rfl
@[simp] theorem State.writeReg_cfg (s : State) (i : RegIdx) (v : Word) :
    (s.writeReg i v).cfg = s.cfg := by unfold State.writeReg; split <;> rfl

@[simp] theorem State.resetWith_pc (c : Config) (r : Vector Word 32) (p : Word) (m : Memory) :
    (State.resetWith c r p m).pc = p := rfl
@[simp] theorem State.resetWith_regs (c : Config) (r : Vector Word 32) (p : Word) (m : Memory) :
    (State.resetWith c r p m).regs = r.set 0 0 := rfl
@[simp] theorem State.resetWith_mem (c : Config) (r : Vector Word 32) (p : Word) (m : Memory) :
    (State.resetWith c r p m).mem = m := rfl
@[simp] theorem State.resetWith_terminated (c : Config) (r : Vector Word 32) (p : Word)
    (m : Memory) : (State.resetWith c r p m).terminated = false := rfl
@[simp] theorem State.resetWith_cfg (c : Config) (r : Vector Word 32) (p : Word) (m : Memory) :
    (State.resetWith c r p m).cfg = c := rfl

end Sys2Proof.Machine
end

