-- ==== Sys2Proof/Laws/Ops.lean ====
section
/-! SUPPORT. What each shared operation can do, once: register reads after writes, the x0 enforcer,
and the two ends of an instruction rule. -/

namespace Sys2Proof.Machine

theorem toNat_zero_iff (r : RegIdx) : r.toNat = 0 ↔ r = 0 := by
  constructor
  · intro h; exact BitVec.eq_of_toNat_eq h
  · rintro rfl; rfl

/-- A register read after a register write (R11, R107). -/
theorem State.readReg_writeReg (s : State) (i r : RegIdx) (v : Word) :
    (s.writeReg i v).readReg r = if r = i ∧ i ≠ 0 then v else s.readReg r := by
  unfold State.writeReg
  by_cases hi : i = 0
  · rw [if_pos hi, if_neg fun h => h.2 hi]
  · rw [if_neg hi]
    by_cases hr : r = i
    · subst hr
      rw [if_pos ⟨rfl, hi⟩]
      exact Vector.getElem_set_self _
    · have hne : i.toNat ≠ r.toNat := fun h => hr (BitVec.eq_of_toNat_eq h.symm)
      rw [if_neg fun h => hr h.1]
      exact Vector.getElem_set_ne i.isLt r.isLt hne

/-- A register read after the x0 enforcer (R107). -/
theorem State.readReg_enforceX0 (s : State) (r : RegIdx) :
    s.enforceX0.readReg r = if r = 0 then 0 else s.readReg r := by
  by_cases hr : r = 0
  · subst hr
    rw [if_pos rfl]
    exact Vector.getElem_set_self _
  · have hne : 0 ≠ r.toNat := fun h => hr ((toNat_zero_iff r).1 h.symm)
    rw [if_neg hr]
    exact Vector.getElem_set_ne (by decide) r.isLt hne

/-! ## Comparing two states -/

/-- Two states with the same registers, pc, memory, flag and parameters are the same. -/
theorem State.ext_reads {s t : State} (hr : ∀ r, s.readReg r = t.readReg r) (hp : s.pc = t.pc)
    (hm : s.mem = t.mem) (ht : s.terminated = t.terminated) (hc : s.cfg = t.cfg) : s = t := by
  have hregs : s.regs = t.regs := by
    apply Vector.ext
    intro i hi
    have h := hr (BitVec.ofNat 5 i)
    have hn : (BitVec.ofNat 5 i).toNat = i := Nat.mod_eq_of_lt hi
    simpa only [State.readReg, hn] using h
  cases s; cases t
  simp only at hregs hp hm ht hc
  rw [hregs, hp, hm, ht, hc]

@[simp] theorem State.withReg_pc (s : State) (r : RegIdx) (v : Word) : (s.withReg r v).pc = s.pc := rfl
@[simp] theorem State.withReg_mem (s : State) (r : RegIdx) (v : Word) :
    (s.withReg r v).mem = s.mem := rfl
@[simp] theorem State.withReg_terminated (s : State) (r : RegIdx) (v : Word) :
    (s.withReg r v).terminated = s.terminated := rfl
@[simp] theorem State.withReg_cfg (s : State) (r : RegIdx) (v : Word) :
    (s.withReg r v).cfg = s.cfg := rfl

theorem State.readReg_withReg (s : State) (r q : RegIdx) (v : Word) :
    (s.withReg r v).readReg q = if q = r then v else s.readReg q := by
  by_cases hq : q = r
  · subst hq
    rw [if_pos rfl]
    exact Vector.getElem_set_self _
  · have hne : r.toNat ≠ q.toNat := fun h => hq (BitVec.eq_of_toNat_eq h.symm)
    rw [if_neg hq]
    exact Vector.getElem_set_ne r.isLt q.isLt hne

/-- A register write after a change of another register, and after a change of the same one. -/
theorem State.writeReg_withReg (s : State) (r rd : RegIdx) (v x : Word) :
    (s.withReg r v).writeReg rd x =
      if rd = r ∧ rd ≠ 0 then s.writeReg rd x else (s.writeReg rd x).withReg r v := by
  by_cases h : rd = r ∧ rd ≠ 0
  · obtain ⟨rfl, h0⟩ := h
    rw [if_pos ⟨rfl, h0⟩]
    apply State.ext_reads
    · intro q
      simp only [State.readReg_writeReg, State.readReg_withReg]
      by_cases hq : q = rd <;> simp only [hq, h0, ne_eq, not_false_eq_true, and_self, false_and,
        if_true, if_false]
    all_goals simp
  · rw [if_neg h]
    apply State.ext_reads
    · intro q
      simp only [State.readReg_writeReg, State.readReg_withReg]
      by_cases hq : q = r
      · have hn : ¬ (q = rd ∧ rd ≠ 0) := fun e => h ⟨e.1.symm.trans hq, e.2⟩
        rw [if_neg hn, if_pos hq, if_pos hq]
      · simp only [hq, if_false]
    all_goals simp

/-! ## Shapes of a next state -/

theorem SameButRegsPc.intro {s t : State} (hm : t.mem = s.mem) (ht : t.terminated = s.terminated)
    (hc : t.cfg = s.cfg) : SameButRegsPc s t :=
  ⟨hm, fun a => by rw [hm], ht, hc⟩

/-- What a register write and a pc write together do. -/
theorem WritesRegAndPc.intro {s t : State} {rd : RegIdx} {v p : Word}
    (hr : ∀ r, t.readReg r = if r = rd ∧ rd ≠ 0 then v else s.readReg r) (hp : t.pc = p)
    (h : SameButRegsPc s t) : WritesRegAndPc s t rd v p where
  dest hne := by rw [hr, if_pos ⟨rfl, hne⟩]
  others r ho := by
    rw [hr, if_neg]
    rintro ⟨h1, h2⟩
    rcases ho with ho | ho <;> contradiction
  pc := hp
  rest := h

/-- The end of a register-writing rule: one next state, with `v` in `x[rd]` and the pc advanced. -/
theorem writeAndAdvance_next (s : State) (rd : RegIdx) (v : Word) :
    ∃ t, writeAndAdvance s rd v = .next t ∧ WritesRegAndPc s t rd v (s.pc + 4) :=
  ⟨_, rfl, .intro (fun r => by simp [State.readReg_writeReg]) (by simp)
    (.intro (by simp) (by simp) (by simp))⟩

/-- The end of a jump: one next state, with the link in `x[rd]` and the target in the pc. -/
theorem jump_writes (s : State) (rd : RegIdx) (v p : Word) :
    WritesRegAndPc s ((s.setPc p).writeReg rd v) rd v p :=
  .intro (fun r => by simp [State.readReg_writeReg]) (by simp)
    (.intro (by simp) (by simp) (by simp))

/-- The end of a branch: one next state, with only the pc moved. -/
theorem branchTo_next (s : State) (taken : Bool) (offset : Imm12) :
    ∃ t, branchTo s taken offset = .next t ∧
      WritesPcOnly s t (if taken then s.pc + offset.signExtend 32 * 2 else s.pc + 4) := by
  cases taken
  · exact ⟨_, rfl, fun r => rfl, by simp, .intro rfl rfl rfl⟩
  · exact ⟨_, rfl, fun r => rfl, by simp [State.branchTarget_eq], .intro rfl rfl rfl⟩

end Sys2Proof.Machine
end

