-- ==== Sys2Proof/Laws/PerInstr.lean ====
section
/-! SUPPORT. Statements about every instruction, one lemma per constructor. -/

namespace Sys2Proof.Laws

/-- The class of an instruction (R75). -/
def instrClass : Instr → OpClass
  | .lui _ _ => .lui
  | .auipc _ _ => .auipc
  | .jal _ _ => .jal
  | .jalr _ _ _ _ => .jalr
  | .beq _ _ _ => .branch
  | .bne _ _ _ => .branch
  | .addi _ _ _ => .imm
  | .slti _ _ _ => .imm
  | .sltiu _ _ _ => .imm
  | .lw _ _ _ => .load
  | .ecall => .system

end Sys2Proof.Laws

namespace Sys2Proof.Laws.EncodedOpcode

/-- The encoder puts the opcode of the instruction's class in `w[6:0]` (R60, R73, R83). -/
def Statement (i : Instr) : Prop :=
  ∀ e : Encoding, opcodeOf (encode e i) = e.opcode (instrClass i)

theorem lui (rd : RegIdx) (imm : Imm20) : Statement (.lui rd imm) :=
  fun _ => opcodeOf_encodeU _ _ _

theorem auipc (rd : RegIdx) (imm : Imm20) : Statement (.auipc rd imm) :=
  fun _ => opcodeOf_encodeU _ _ _

theorem jal (rd : RegIdx) (offset : Imm20) : Statement (.jal rd offset) :=
  fun _ => opcodeOf_encodeJ _ _ _

theorem jalr (rd : RegIdx) (funct3 : Funct3) (rs1 : RegIdx) (offset : Imm12) :
    Statement (.jalr rd funct3 rs1 offset) := fun _ => opcodeOf_encodeI _ _ _ _ _

theorem beq (rs1 rs2 : RegIdx) (offset : Imm12) : Statement (.beq rs1 rs2 offset) :=
  fun _ => opcodeOf_encodeB _ _ _ _ _

theorem bne (rs1 rs2 : RegIdx) (offset : Imm12) : Statement (.bne rs1 rs2 offset) :=
  fun _ => opcodeOf_encodeB _ _ _ _ _

theorem addi (rd rs1 : RegIdx) (imm : Imm12) : Statement (.addi rd rs1 imm) :=
  fun _ => opcodeOf_encodeI _ _ _ _ _

theorem slti (rd rs1 : RegIdx) (imm : Imm12) : Statement (.slti rd rs1 imm) :=
  fun _ => opcodeOf_encodeI _ _ _ _ _

theorem sltiu (rd rs1 : RegIdx) (imm : Imm12) : Statement (.sltiu rd rs1 imm) :=
  fun _ => opcodeOf_encodeI _ _ _ _ _

theorem lw (rd rs1 : RegIdx) (imm : Imm12) : Statement (.lw rd rs1 imm) :=
  fun _ => opcodeOf_encodeI _ _ _ _ _

theorem ecall : Statement .ecall := fun _ => opcodeOf_encodeI _ _ _ _ _

end Sys2Proof.Laws.EncodedOpcode
end

