-- ==== Sys2Proof/Laws/Step.lean ====
section
/-! SUPPORT. What an instruction, a cycle and a step can do, once. -/

namespace Sys2Proof.Machine

/-- Everything an instruction that goes on does: it writes at most one register and the pc, or it is
an ECALL whose hook answered `Terminate` (R23, R155). -/
theorem exec_next_cases {i : Instr} {s t : State} (h : exec i s = .next t) :
    (∃ rd v p, WritesRegAndPc s t rd v p) ∨ (∃ p, WritesPcOnly s t p) ∨
      (i = .ecall ∧ hookAnswer s.cfg.hook s.syscallArgs = .terminate ∧
        t = s.setTerminated.advancePc) := by
  have hw : ∀ rd v, writeAndAdvance s rd v = .next t → ∃ rd v p, WritesRegAndPc s t rd v p := by
    intro rd v hv
    obtain ⟨u, hu, hs⟩ := writeAndAdvance_next s rd v
    cases hu.symm.trans hv
    exact ⟨_, _, _, hs⟩
  have hb : ∀ b o, branchTo s b o = .next t → ∃ p, WritesPcOnly s t p := by
    intro b o hv
    obtain ⟨u, hu, hs⟩ := branchTo_next s b o
    cases hu.symm.trans hv
    exact ⟨_, hs⟩
  cases i with
  | lui rd imm => exact .inl (hw _ _ h)
  | auipc rd imm => exact .inl (hw _ _ h)
  | jal rd offset => cases h; exact .inl ⟨_, _, _, jump_writes _ _ _ _⟩
  | jalr rd funct3 rs1 offset =>
    simp only [exec, execJalr] at h
    split at h
    · cases h
    · cases h; exact .inl ⟨_, _, _, jump_writes _ _ _ _⟩
  | beq rs1 rs2 offset => exact .inr (.inl (hb _ _ h))
  | bne rs1 rs2 offset => exact .inr (.inl (hb _ _ h))
  | addi rd rs1 imm => exact .inl (hw _ _ h)
  | slti rd rs1 imm => exact .inl (hw _ _ h)
  | sltiu rd rs1 imm => exact .inl (hw _ _ h)
  | lw rd rs1 imm =>
    simp only [exec, execLw] at h
    split at h
    · exact .inl (hw _ _ h)
    · cases h
  | ecall =>
    simp only [exec, execEcall] at h
    split at h
    · cases h; exact .inr (.inl ⟨_, fun r => rfl, rfl, .intro rfl rfl rfl⟩)
    · cases h; exact .inr (.inr ⟨rfl, ‹_›, rfl⟩)
    · cases h

/-- Everything an instruction can stop with (R172, R173, R174). -/
theorem exec_fault_cases {i : Instr} {s : State} {e : Fault} (h : exec i s = .fault e) :
    (∃ rd f3 rs1 off, i = .jalr rd f3 rs1 off ∧ s.cfg.jalrMode = .unsupported ∧
        e = .executeError .jalr s.cfg.enc.opcJalr.toNat) ∨
    (∃ rd rs1 imm, i = .lw rd rs1 imm ∧ inBounds s.cfg (s.basePlusImm rs1 imm) = false ∧
        e = .memoryBoundsError (s.basePlusImm rs1 imm)) ∨
    (∃ r, i = .ecall ∧ hookAnswer s.cfg.hook s.syscallArgs = .fail r ∧ e = failFault r) := by
  have hw : ∀ rd v, writeAndAdvance s rd v ≠ .fault e := fun rd v hv => by cases hv
  have hb : ∀ b o, branchTo s b o ≠ .fault e := fun b o hv => by cases b <;> cases hv
  cases i with
  | lui rd imm => exact absurd h (hw _ _)
  | auipc rd imm => exact absurd h (hw _ _)
  | jal rd offset => cases h
  | jalr rd funct3 rs1 offset =>
    simp only [exec, execJalr] at h
    split at h
    · cases h; exact .inl ⟨_, _, _, _, rfl, ‹_›, rfl⟩
    · cases h
  | beq rs1 rs2 offset => exact absurd h (hb _ _)
  | bne rs1 rs2 offset => exact absurd h (hb _ _)
  | addi rd rs1 imm => exact absurd h (hw _ _)
  | slti rd rs1 imm => exact absurd h (hw _ _)
  | sltiu rd rs1 imm => exact absurd h (hw _ _)
  | lw rd rs1 imm =>
    simp only [exec, execLw] at h
    obtain ⟨hin, hm⟩ | ⟨hin, hm⟩ := memRead_cases s (s.basePlusImm rs1 imm) <;> rw [hm] at h
    · exact absurd h (hw _ _)
    · cases h; exact .inr (.inl ⟨_, _, _, rfl, hin, rfl⟩)
  | ecall =>
    simp only [exec, execEcall] at h
    split at h
    · cases h
    · cases h
    · cases h; exact .inr (.inr ⟨_, rfl, ‹_›, rfl⟩)

/-- No instruction is refused: each of the table's rows has its meaning. -/
theorem exec_ne_refused (i : Instr) (s : State) (r : Refusal) : exec i s ≠ .refused r := by
  intro h
  cases i with
  | beq rs1 rs2 offset =>
    simp only [exec, execBeq, branchTo] at h
    split at h <;> cases h
  | bne rs1 rs2 offset =>
    simp only [exec, execBne, branchTo] at h
    split at h <;> cases h
  | jalr rd funct3 rs1 offset =>
    simp only [exec, execJalr] at h
    split at h <;> cases h
  | lw rd rs1 imm =>
    simp only [exec, execLw] at h
    split at h <;> cases h
  | ecall =>
    simp only [exec, execEcall] at h
    split at h <;> cases h
  | _ => cases h

/-- An instruction goes on or stops with a fatal error. -/
theorem exec_cases (i : Instr) (s : State) :
    (∃ t, exec i s = .next t) ∨ ∃ e, exec i s = .fault e := by
  cases h : exec i s with
  | next t => exact .inl ⟨t, rfl⟩
  | fault e => exact .inr ⟨e, rfl⟩
  | refused r => exact absurd h (exec_ne_refused i s r)

/-- Everything a step that goes on does (R105). -/
theorem step_next_cases {s t : State} (h : step s = .next t) :
    s.terminated = false ∧ ∃ w, fetch s = .ok w ∧
      ((w = 0 ∧ t = s.advancePc) ∨
        (w ≠ 0 ∧ ∃ i u, decode s.cfg.enc w = .ok i ∧ exec i s = .next u ∧ t = u.enforceX0)) := by
  unfold step cycle at h
  split at h
  · cases h
  · refine ⟨eq_false_of_ne_true ‹_›, ?_⟩
    split at h
    · rename_i w hw
      refine ⟨w, hw, ?_⟩
      unfold cycleOn at h
      split at h
      · cases h; exact .inl ⟨‹_›, rfl⟩
      · split at h
        · rename_i i hi
          unfold executeAndEnforce at h
          split at h
          · cases h; exact .inr ⟨‹_›, _, _, hi, ‹_›, rfl⟩
          · cases h
          · cases h
        · cases h
    · cases h

/-- Everything a step that ends with a fatal error met, in the order of R105 (R175). -/
theorem step_fault_cases {s : State} {e : Fault} (h : step s = .fault e) :
    s.terminated = false ∧
      (fetch s = .error e ∨ ∃ w, fetch s = .ok w ∧ w ≠ 0 ∧
        ((∃ r, decode s.cfg.enc w = .error r ∧ e = rejectFault r) ∨
          ∃ i, decode s.cfg.enc w = .ok i ∧ exec i s = .fault e)) := by
  unfold step cycle at h
  split at h
  · cases h
  · refine ⟨eq_false_of_ne_true ‹_›, ?_⟩
    split at h
    · rename_i w hw
      unfold cycleOn at h
      split at h
      · cases h
      · split at h
        · rename_i i hi
          unfold executeAndEnforce at h
          split at h
          · cases h
          · cases h; exact .inr ⟨w, hw, ‹_›, .inr ⟨i, hi, ‹_›⟩⟩
          · cases h
        · cases h; exact .inr ⟨w, hw, ‹_›, .inl ⟨_, ‹_›, rfl⟩⟩
    · cases h; exact .inl ‹_›

/-- A step is refused only after the run ended (R109, D16). -/
theorem step_refused_cases {s : State} {r : Refusal} (h : step s = .refused r) :
    s.terminated = true ∧ r = .runTerminated := by
  unfold step cycle at h
  split at h
  · cases h; exact ⟨‹_›, rfl⟩
  · split at h
    · unfold cycleOn at h
      split at h
      · cases h
      · split at h
        · unfold executeAndEnforce at h
          split at h
          · cases h
          · cases h
          · exact absurd ‹_› (exec_ne_refused _ _ _)
        · cases h
    · cases h

/-- A step of a decoded word (R105). -/
theorem step_of_decoded {s : State} {w : Word} {i : Instr} (hr : s.terminated = false)
    (hf : fetch s = .ok w) (hw : w ≠ 0) (hd : decode s.cfg.enc w = .ok i) :
    step s = (executeAndEnforce i s).outcome := by
  simp only [step, cycle, hr, hf, cycleOn, hd, if_neg hw]
  rfl

/-- The fetch meets the bounds check at the pc and nothing else (R101). -/
theorem fetch_cases (s : State) :
    (inBounds s.cfg s.pc = true ∧ fetch s = .ok (s.mem.readWord s.pc.toNat)) ∨
      (inBounds s.cfg s.pc = false ∧ fetch s = .error (.memoryBoundsError s.pc)) :=
  memRead_cases s s.pc

/-- A step that goes on or fails starts in a running state (R109). -/
theorem running_of_step_next {s t : State} (h : step s = .next t) : s.terminated = false := by
  cases ht : s.terminated with
  | false => rfl
  | true => simp [step, cycle, ht, CycleResult.outcome] at h

theorem running_of_step_fault {s : State} {e : Fault} (h : step s = .fault e) :
    s.terminated = false := by
  cases ht : s.terminated with
  | false => rfl
  | true => simp [step, cycle, ht, CycleResult.outcome] at h

/-- What the driver's loop does, said through `step` (R110). -/
theorem drive_of_terminated (n : Nat) {s : State} (h : s.terminated = true) :
    drive n s = .normal s := by
  cases n <;> simp [drive, h]

theorem drive_zero_of_running {s : State} (h : s.terminated = false) : drive 0 s = .running s := by
  simp [drive, h]

theorem drive_of_step_next (n : Nat) {s t : State} (h : step s = .next t) :
    drive (n + 1) s = drive n t := by
  have hr := running_of_step_next h
  unfold step at h
  cases hc : cycle s <;> rw [hc] at h <;> cases h <;> simp [drive, hr, hc]

theorem drive_of_step_fault (n : Nat) {s : State} {e : Fault} (h : step s = .fault e) :
    drive (n + 1) s = .abnormal e s := by
  have hr := running_of_step_fault h
  unfold step at h
  cases hc : cycle s <;> rw [hc] at h <;> cases h
  simp [drive, hr, hc]

/-- Counted runs and runs are the same runs. -/
theorem ReachesIn.snoc {n : Nat} {s t u : State} (h : ReachesIn n s t) (hu : step t = .next u) :
    ReachesIn (n + 1) s u := by
  induction h with
  | zero s => exact .succ hu (.zero _)
  | succ first _ ih => exact .succ first (ih hu)

theorem Reaches.cons {s t u : State} (first : step s = .next t) (after : Reaches t u) :
    Reaches s u := by
  induction after with
  | refl => exact .next (.refl s) first
  | next _ last ih => exact .next ih last

theorem reaches_iff_reachesIn {s t : State} : Reaches s t ↔ ∃ n, ReachesIn n s t := by
  constructor
  · intro h
    induction h with
    | refl => exact ⟨0, .zero s⟩
    | next _ last ih => exact ih.elim fun n hn => ⟨n + 1, hn.snoc last⟩
  · rintro ⟨n, h⟩
    induction h with
    | zero s => exact .refl s
    | succ first _ ih => exact ih.cons first

end Sys2Proof.Machine
end

