-- ==== Sys2Proof/Tests/Slice0.lean ====
section
/-! SUPPORT. Tests: ill-formed terms refused, words written out field by field decode to their
instruction, one step per vector of spec/95_test_vectors.md, and for every statement a state and
operands that meet its hypotheses. Expected results are the spec's. -/

namespace Sys2Proof.Tests

open Sys2Proof Sys2Proof.Machine

/-! ## WellFormed: each check refuses an ill-formed term -/

theorem test_wf_accepts_the_default : Config.default.wf = true := by decide

theorem test_wf_refuses_equal_opcodes :
    Encoding.wf { Encoding.rv32i with opcLui := Encoding.rv32i.opcJal } = false := by decide

theorem test_wf_refuses_a_zero_opcode :
    Encoding.wf { Encoding.rv32i with opcSystem := 0 } = false := by decide

theorem test_wf_refuses_equal_branch_functs :
    Encoding.wf { Encoding.rv32i with f3Bne := Encoding.rv32i.f3Beq } = false := by decide

theorem test_wf_refuses_equal_imm_functs :
    Encoding.wf { Encoding.rv32i with f3Sltiu := Encoding.rv32i.f3Slti } = false := by decide

theorem test_wf_refuses_a_high_base :
    Config.wf { Config.default with memStart := 4294967296, memSize := 0 } = false := by decide

theorem test_wf_refuses_a_memory_past_the_top :
    Config.wf { Config.default with memStart := 1 } = false := by decide

theorem test_wf_refuses_x32 :
    (Asm.lui 32 0).wf = false ∧ (Asm.auipc 32 0).wf = false ∧ (Asm.jal 32 0).wf = false ∧
    (Asm.jalr 1 0 32).wf = false ∧ (Asm.beq 0 32 0).wf = false ∧ (Asm.bne 32 0 0).wf = false ∧
    (Asm.addi 0 32 0).wf = false ∧ (Asm.slti 32 0 0).wf = false ∧ (Asm.sltiu 0 32 0).wf = false ∧
    (Asm.lw 0 0 32).wf = false ∧ (Asm.li 32 0).wf = false ∧ (Asm.mv 0 32).wf = false ∧
    (Asm.beqz 32 0).wf = false ∧ (Asm.bnez 32 0).wf = false ∧ (Asm.seqz 32 0).wf = false := by
  decide

theorem test_wf_refuses_a_wide_imm20 :
    (Asm.lui 5 0x100000).wf = false ∧ (Asm.auipc 5 0x100000).wf = false := by decide

theorem test_wf_refuses_a_wide_imm12 :
    (Asm.addi 5 6 2048).wf = false ∧ (Asm.addi 5 6 (-2049)).wf = false ∧
    (Asm.slti 5 6 2048).wf = false ∧ (Asm.sltiu 5 6 2048).wf = false ∧
    (Asm.lw 5 2048 6).wf = false ∧ (Asm.jalr 1 2048 5).wf = false ∧ (Asm.li 5 2048).wf = false := by
  decide

theorem test_wf_refuses_a_bad_displacement :
    (Asm.jal 1 3).wf = false ∧ (Asm.jal 1 1048576).wf = false ∧ (Asm.jal 1 (-1048578)).wf = false ∧
    (Asm.j 1).wf = false ∧ (Asm.beq 5 6 1).wf = false ∧ (Asm.bne 5 6 4096).wf = false ∧
    (Asm.beqz 5 (-4098)).wf = false ∧ (Asm.bnez 5 7).wf = false := by decide

theorem test_wf_accepts_the_boundaries :
    (Asm.jal 31 1048574).wf = true ∧ (Asm.j (-1048576)).wf = true ∧ (Asm.beq 31 0 4094).wf = true ∧
    (Asm.bne 0 31 (-4096)).wf = true ∧ (Asm.addi 31 31 2047).wf = true ∧
    (Asm.lui 31 0xFFFFF).wf = true ∧ (Asm.jalr 31 (-2048) 31).wf = true ∧ Asm.ecall.wf = true ∧
    Asm.nop.wf = true := by decide

/-! ## Decoding: words spelled field by field from the layouts of R62 to R65, values of R83 and the
V-DEC vectors -/

/-- `lui x5, 0x12345` = `0x123452B7` (V-DEC-1). -/
theorem test_decode_lui :
    decode .rv32i (0b00010010001101000101#20 ++ 0b00101#5 ++ 0b0110111#7) = .ok (.lui 5 0x12345) ∧
    decodeTableWord 32 0x123452B7 = some (.lui 5 0x12345) := by decide

/-- `auipc x5, 0xFFFFF` = `0xFFFFF297` (V-DEC-2). -/
theorem test_decode_auipc :
    decode .rv32i (0b11111111111111111111#20 ++ 0b00101#5 ++ 0b0010111#7) =
      .ok (.auipc 5 0xFFFFF) ∧
    decodeTableWord 32 0xFFFFF297 = some (.auipc 5 0xFFFFF) := by decide

/-- `imm[20]`, `imm[10:1]`, `imm[11]`, `imm[19:12]`, `rd`: `jal x1, 12` (V-DEC-7), then each scattered
group alone (V-DEC-10, V-DEC-11). -/
theorem test_decode_jal :
    decode .rv32i (0b0#1 ++ 0b0000000110#10 ++ 0b0#1 ++ 0b00000000#8 ++ 0b00001#5 ++ 0b1101111#7) =
      .ok (.jal 1 0x00006) ∧
    decode .rv32i (0b1#1 ++ 0b0000000000#10 ++ 0b0#1 ++ 0b00000000#8 ++ 0b00101#5 ++ 0b1101111#7) =
      .ok (.jal 5 0x80000) ∧
    decode .rv32i (0b0#1 ++ 0b0000000000#10 ++ 0b1#1 ++ 0b00000000#8 ++ 0b00001#5 ++ 0b1101111#7) =
      .ok (.jal 1 0x00400) ∧
    decode .rv32i (0b0#1 ++ 0b0000000000#10 ++ 0b0#1 ++ 0b11111111#8 ++ 0b00001#5 ++ 0b1101111#7) =
      .ok (.jal 1 0x7F800) := by decide

/-- `jalr x1, -2(x5)` = `0xFFE280E7` (V-DEC-23), and with a non-zero funct3. -/
theorem test_decode_jalr :
    decode .rv32i (0b111111111110#12 ++ 0b00101#5 ++ 0b000#3 ++ 0b00001#5 ++ 0b1100111#7) =
      .ok (.jalr 1 0 5 0xFFE) ∧
    decode .rv32i (0b111111111110#12 ++ 0b00101#5 ++ 0b101#3 ++ 0b00001#5 ++ 0b1100111#7) =
      .ok (.jalr 1 5 5 0xFFE) := by decide

/-- `imm[12]`, `imm[10:5]`, `rs2`, `rs1`, `funct3`, `imm[4:1]`, `imm[11]`: `beq x5, x6, 8` (V-DEC-12),
then `imm[11]` with part of `imm[4:1]`, and `imm[12]` alone (V-DEC-17, V-DEC-18). -/
theorem test_decode_beq :
    decode .rv32i (0b0#1 ++ 0b000000#6 ++ 0b00110#5 ++ 0b00101#5 ++ 0b000#3 ++ 0b0100#4 ++ 0b0#1 ++
      0b1100011#7) = .ok (.beq 5 6 0x004) ∧
    decode .rv32i (0b0#1 ++ 0b000000#6 ++ 0b00000#5 ++ 0b00000#5 ++ 0b000#3 ++ 0b1010#4 ++ 0b1#1 ++
      0b1100011#7) = .ok (.beq 0 0 0x40A) ∧
    decode .rv32i (0b1#1 ++ 0b000000#6 ++ 0b00000#5 ++ 0b00000#5 ++ 0b000#3 ++ 0b0000#4 ++ 0b0#1 ++
      0b1100011#7) = .ok (.beq 0 0 0x800) := by decide

/-- `bne x1, x0, -8` = `0xFE009CE3` (V-DEC-15). -/
theorem test_decode_bne :
    decode .rv32i (0b1#1 ++ 0b111111#6 ++ 0b00000#5 ++ 0b00001#5 ++ 0b001#3 ++ 0b1100#4 ++ 0b1#1 ++
      0b1100011#7) = .ok (.bne 1 0 0xFFC) ∧
    decodeTableWord 32 0xFE009CE3 = some (.bne 1 0 0xFFC) := by decide

/-- `addi x5, x6, -1` = `0xFFF30293` (V-DEC-19). -/
theorem test_decode_addi :
    decode .rv32i (0b111111111111#12 ++ 0b00110#5 ++ 0b000#3 ++ 0b00101#5 ++ 0b0010011#7) =
      .ok (.addi 5 6 0xFFF) := by decide

/-- `slti x7, x5, -1` = `0xFFF2A393` (V-SLTI-1). -/
theorem test_decode_slti :
    decode .rv32i (0b111111111111#12 ++ 0b00101#5 ++ 0b010#3 ++ 0b00111#5 ++ 0b0010011#7) =
      .ok (.slti 7 5 0xFFF) := by decide

/-- `sltiu x7, x5, -1` = `0xFFF2B393` (V-DEC-20). -/
theorem test_decode_sltiu :
    decode .rv32i (0b111111111111#12 ++ 0b00101#5 ++ 0b011#3 ++ 0b00111#5 ++ 0b0010011#7) =
      .ok (.sltiu 7 5 0xFFF) := by decide

/-- `lw x6, -4(x5)` = `0xFFC2A303` (V-DEC-22). -/
theorem test_decode_lw :
    decode .rv32i (0b111111111100#12 ++ 0b00101#5 ++ 0b010#3 ++ 0b00110#5 ++ 0b0000011#7) =
      .ok (.lw 6 5 0xFFC) := by decide

/-- `ecall` = `0x00000073`, and with ignored bits set (V-DEC-24, V-DEC-25). -/
theorem test_decode_ecall :
    decode .rv32i (0b000000000000#12 ++ 0b00000#5 ++ 0b000#3 ++ 0b00000#5 ++ 0b1110011#7) =
      .ok .ecall ∧
    decode .rv32i (0b000000000000#12 ++ 0b00110#5 ++ 0b001#3 ++ 0b00101#5 ++ 0b1110011#7) =
      .ok .ecall := by decide

/-- V-DEC-3, V-DEC-5, V-DEC-21, V-DEC-26 to V-DEC-28, V-DEC-31, V-BR-11, V-LW-11. -/
theorem test_decode_rejects :
    decode .rv32i 0x00000080 = .error (.unimplementedOpcode 0) ∧
    decode .rv32i 0x0000008B = .error (.unimplementedOpcode 0x0B) ∧
    decode .rv32i 0x0062A023 = .error (.unimplementedOpcode 0x23) ∧
    decode .rv32i 0xFFFFFFFF = .error (.unimplementedOpcode 0x7F) ∧
    decode .rv32i 0x00134293 = .error (.unimplementedFunct .imm 4) ∧
    decode .rv32i 0x0062F463 = .error (.unimplementedFunct .branch 7) ∧
    decode .rv32i 0x00028303 = .error (.unimplementedFunct .load 0) ∧
    decode .rv32i 0x00100073 = .error (.unimplementedFunct .system 1) ∧
    decode .rv32i 0x30200073 = .error (.unimplementedFunct .system 0x302) := by decide

/-- The encoder's words for the examples of R83. -/
theorem test_encode_examples :
    encode .rv32i (Asm.addi 5 6 (-1)).instr = 0xFFF30293 ∧
    encode .rv32i (Asm.lui 5 0x12345).instr = 0x123452B7 ∧
    encode .rv32i (Asm.jal 1 12).instr = 0x00C000EF ∧
    encode .rv32i (Asm.jal 1 (-4)).instr = 0xFFDFF0EF ∧
    encode .rv32i (Asm.beq 5 6 8).instr = 0x00628463 ∧
    encode .rv32i (Asm.bne 5 6 (-4096)).instr = 0x80629063 ∧
    encode .rv32i (Asm.lw 6 (-4) 5).instr = 0xFFC2A303 ∧
    encode .rv32i (Asm.jalr 1 (-2) 5).instr = 0xFFE280E7 ∧
    encode .rv32i Asm.ecall.instr = 0x00000073 ∧
    encode .rv32i Asm.nop.instr = 0x00000013 := by decide

/-! ## Arithmetic units and memory: V-AU and V-MEM -/

theorem test_arithmetic_units :
    bitMaskPrefix 0 = 0 ∧ bitMaskPrefix 32 = 0xFFFFFFFF ∧
    toSigned 0x800 12 = -2048 ∧ toSigned 0x7FF 12 = 2047 ∧ toSigned 1 1 = -1 ∧
    toSigned 4294967301 32 = 5 ∧ truncate (-4096) 32 = 0xFFFFF000 ∧
    truncate 4294967301 32 = 5 := by decide

/-- The memory of the V-MEM vectors: 32 bytes from `0x1000`. -/
def memState : State :=
  { State.reset with cfg := { Config.default with memStart := 0x1000, memSize := 0x20 } }

/-- The state after a host write, or the same state where the write is out of range. -/
def written (s : State) (v a : Word) : State :=
  match memWrite s v a with
  | .ok t => t
  | .error _ => s

/-- V-MEM-3: an unaligned write and the three words that overlap it. -/
theorem test_memory_bytes :
    memRead (written memState 0xA1B2C3D4 0x1001) 0x1001 = .ok 0xA1B2C3D4 ∧
    memRead (written memState 0xA1B2C3D4 0x1001) 0x1000 = .ok 0xB2C3D400 ∧
    memRead (written memState 0xA1B2C3D4 0x1001) 0x1004 = .ok 0x000000A1 ∧
    (written memState 0xA1B2C3D4 0x1001).mem =
      [(0x1001, 0xD4), (0x1002, 0xC3), (0x1003, 0xB2), (0x1004, 0xA1)] := by decide

/-- V-MEM-4 to V-MEM-10. -/
theorem test_memory_bounds :
    memRead memState 0x0FFF = .error (.memoryBoundsError 0x0FFF) ∧
    memRead memState 0x101C = .ok 0 ∧
    memRead memState 0x101D = .error (.memoryBoundsError 0x101D) ∧
    (written memState 1 0x101E).mem = [] ∧
    memRead memState 0xFFFFFFFC = .error (.memoryBoundsError 0xFFFFFFFC) := by decide

/-! ## One step: the single-cycle vectors -/

/-- Registers, all 0 but those listed. -/
def regFile (regs : List (RegIdx × Word)) : Vector Word 32 :=
  regs.foldl (fun v p => v.set p.1.toNat p.2) (Vector.replicate 32 0)

/-- The start state of a single-cycle vector: 4096 bytes from 0, the word at `pc = 0x100`, the listed
registers, further memory words. -/
def vec (word : Word) (regs : List (RegIdx × Word)) (words : List (Word × Word)) : State where
  regs := regFile regs
  pc := 0x100
  mem := imageMemory ((0x100, word) :: words)
  terminated := false
  cfg := { Config.default with memSize := 0x1000 }

/-- The same state with other parameters. -/
def withCfg (s : State) (cfg : Config) : State := { s with cfg := cfg }

/-- One register, the pc and the flag after a step that goes on. -/
def after (s : State) (r : RegIdx) : Option (Word × Word × Bool) :=
  match step s with
  | .next t => some (t.readReg r, t.pc, t.terminated)
  | .fault _ => none
  | .refused _ => none

/-- The fatal error of a step. -/
def faultOf (s : State) : Option Fault :=
  match step s with
  | .next _ => none
  | .fault e => some e
  | .refused _ => none

/-- V-LUI-1, V-LUI-5. -/
theorem test_lui :
    after (vec 0x123452B7 [] []) 5 = some (0x12345000, 0x104, false) ∧
    after (vec 0x00001037 [] []) 0 = some (0, 0x104, false) := by decide

/-- V-AUIPC-2, V-AUIPC-3 (the sum wraps). -/
theorem test_auipc :
    after (vec 0x00001297 [] []) 5 = some (0x1100, 0x104, false) ∧
    after (vec 0xFFFFF297 [] []) 5 = some (0xFFFFF100, 0x104, false) := by decide

/-- V-JAL-5, V-JAL-4. -/
theorem test_jal_literal :
    after (vec 0xFFDFF0EF [] []) 1 = some (0x100, 0x0FC, false) ∧
    after (vec 0x0080006F [] []) 0 = some (0, 0x108, false) := by decide

/-- The parameters of the vectors with the conventional JAL link and with JALR. -/
def standardCfg : Config :=
  { Config.default with memSize := 0x1000, jalLinkMode := .standard, jalrMode := .standard }

/-- V-JAL-3. -/
theorem test_jal_standard :
    after (withCfg (vec 0x00C000EF [] []) standardCfg) 1 = some (0x104, 0x10C, false) := by decide

/-- V-JALR-1. -/
theorem test_jalr_unsupported :
    faultOf (vec 0xFFE280E7 [(5, 0x205)] []) = some (.executeError .jalr 0x67) := by decide

/-- V-JALR-2: bit 0 of the sum is cleared, the link is from the old pc. -/
theorem test_jalr_standard :
    after (withCfg (vec 0xFFE280E7 [(5, 0x205)] []) standardCfg) 1 = some (0x104, 0x202, false) := by
  decide

/-- V-BR-1, V-BR-2. -/
theorem test_beq :
    after (vec 0x00628463 [(5, 7), (6, 7)] []) 5 = some (7, 0x108, false) ∧
    after (vec 0x00628463 [(5, 7), (6, 8)] []) 5 = some (7, 0x104, false) := by decide

/-- V-BR-4 (the target wraps), V-BR-5. -/
theorem test_bne :
    after (vec 0x80629063 [(5, 1), (6, 2)] []) 5 = some (1, 0xFFFFF100, false) ∧
    after (vec 0x80629063 [(5, 2), (6, 2)] []) 5 = some (2, 0x104, false) := by decide

/-- V-BR-10. -/
theorem test_branch_funct :
    faultOf (vec 0x0062C463 [(5, 1), (6, 2)] []) = some (.executeError .branch 4) := by decide

/-- V-ADDI-1, V-ADDI-2 (source and destination the same, wrap into the sign). -/
theorem test_addi :
    after (vec 0xFFF30293 [(6, 5)] []) 5 = some (4, 0x104, false) ∧
    after (vec 0x00128293 [(5, 0x7FFFFFFF)] []) 5 = some (0x80000000, 0x104, false) := by decide

/-- V-SLTI-6, V-SLTI-2. -/
theorem test_slti :
    after (vec 0x00032393 [(6, 0xFFFFFFFE)] []) 7 = some (1, 0x104, false) ∧
    after (vec 0xFFF2A393 [(5, 0xFFFFFFFF), (7, 9)] []) 7 = some (0, 0x104, false) := by decide

/-- V-SLTIU-4, V-SLTIU-6. -/
theorem test_sltiu :
    after (vec 0x0012B393 [(5, 0xFFFFFFFE), (7, 9)] []) 7 = some (0, 0x104, false) ∧
    after (vec 0x8002B393 [(5, 0xFFFFF7FF)] []) 7 = some (1, 0x104, false) := by decide

/-- V-IMM-X. -/
theorem test_imm_funct :
    faultOf (vec 0x00134293 [(6, 3)] []) = some (.executeError .imm 4) := by decide

/-- V-LW-2 (unaligned), V-LW-3 (the address wraps). -/
theorem test_lw :
    after (vec 0x0012A303 [(5, 0x200)] [(0x200, 0x44332211), (0x204, 0x88776655)]) 6 =
      some (0x55443322, 0x104, false) ∧
    after (vec 0x0052A303 [(5, 0xFFFFFFFF)] [(0x004, 0xCAFEF00D)]) 6 =
      some (0xCAFEF00D, 0x104, false) := by decide

/-- V-LW-6, V-LW-8, V-LW-11. -/
theorem test_lw_bounds :
    faultOf (vec 0x0002A003 [(5, 0x2000)] []) = some (.memoryBoundsError 0x2000) ∧
    faultOf (vec 0x0002A303 [(5, 0xFFD)] []) = some (.memoryBoundsError 0xFFD) ∧
    faultOf (vec 0x00028303 [(5, 0x2000)] []) = some (.executeError .load 0) := by decide

/-- V-SYS-1, V-SYS-4, V-SYS-7. -/
theorem test_ecall_reference :
    after (vec 0x00000073 [(10, 1)] []) 10 = some (1, 0x104, true) ∧
    faultOf (vec 0x00000073 [(10, 0x80000001)] []) = some (.unknownSystemCall 0x80000001) ∧
    faultOf (vec 0x00100073 [(10, 1)] []) = some (.executeError .system 1) := by decide

/-- Parameters with a hook that gives one answer to every call. -/
def hookCfg (a : HookAnswer) : Config :=
  { Config.default with memSize := 0x1000, hook := .table [] a }

/-- V-SYS-9, and a hook's other reason passed through (R174). -/
theorem test_ecall_other_hooks :
    after (withCfg (vec 0x00000073 [(10, 7)] []) (hookCfg .continues)) 10 =
      some (7, 0x104, false) ∧
    faultOf (withCfg (vec 0x00000073 [(10, 7)] []) (hookCfg (.fail (.hostReason 3)))) =
      some (.hookFailure 3) := by decide

/-- V-CYC-1, V-CYC-4, V-CYC-7. -/
theorem test_cycle :
    after (vec 0 [] []) 5 = some (0, 0x104, false) ∧
    faultOf ((vec 0 [] []).setPc 0x1000) = some (.memoryBoundsError 0x1000) ∧
    faultOf (vec 0x00000080 [] []) = some (.decodeError 0) := by decide

/-- V-CYC-6: a fetch at `0x102`. -/
theorem test_misaligned_fetch :
    after ((vec 0x02930000 [] [(0x104, 0x00000010)]).setPc 0x102) 5 = some (1, 0x106, false) := by
  decide

/-- P4d's boot state (D25): base and pc the lowest address, the span plus 16, the load out of range. -/
theorem test_boot_image :
    (bootImage Config.default [(0x100, 0xFFC02283)]).pc = 0x100 ∧
    (bootImage Config.default [(0x100, 0xFFC02283)]).cfg.memStart = 0x100 ∧
    (bootImage Config.default [(0x100, 0xFFC02283)]).cfg.memSize = 0x10 ∧
    faultOf (bootImage Config.default [(0x100, 0xFFC02283)]) =
      some (.memoryBoundsError 0xFFFFFFFC) := by decide

/-- A table word placed for the next fetch from reset runs as that instruction. -/
theorem test_with_fetch_word :
    after (State.reset.withFetchWord 32 0x123452B7) 5 = some (0x12345000, 4, false) ∧
    after (State.reset.withFetchWord 32 0x0002A303) 6 = some (0x0002A303, 4, false) := by decide

/-! ## Witnesses: for every statement with hypotheses, values that meet them, clause by clause -/

/-- `addi x5, x6, -1` at the pc with `x6 = 5`: an ordinary running state. -/
def addiState : State := vec 0xFFF30293 [(6, 5)] []

/-- The last word of the V-MEM memory is inside, the address after it is not. -/
theorem witness_in_memory : InMemory memState 0x101C ∧ ¬ InMemory memState 0x101D ∧
    ¬ InMemory memState 0x0FFF := by
  unfold InMemory
  decide

theorem witness_BitMaskPrefixMasksLowBits : (0 : Nat) ≤ 32 ∧ (32 : Nat) ≤ 32 := by decide

theorem witness_ToSignedReadsTwosComplement :
    (1 ≤ 12 ∧ 12 ≤ 32 ∧ 0x800 < 2 ^ 12 ∧ Nat.testBit 0x800 11 = true) ∧
    (1 ≤ 12 ∧ 12 ≤ 32 ∧ 0x7FF < 2 ^ 12 ∧ Nat.testBit 0x7FF 11 = false) ∧
    (1 ≤ 32 ∧ 32 ≤ 32 ∧ 0x80000000 < 2 ^ 32 ∧ Nat.testBit 0x80000000 31 = true) ∧
    (1 ≤ 1 ∧ 1 ≤ 32 ∧ 0 < 2 ^ 1 ∧ Nat.testBit 0 0 = false) := by decide

theorem witness_ToSignedReducesItsArgumentFirst :
    (1 ≤ 1 ∧ 1 ≤ 32) ∧ (1 ≤ 32 ∧ 32 ≤ 32 ∧ 31 < 32) := by decide

/-- Both clauses: `witness_in_memory`'s addresses. -/
theorem witness_ReadWordIsLittleEndianAndBounded :
    InMemory memState 0x1000 ∧ ¬ InMemory memState 0x1020 := by
  unfold InMemory
  decide

theorem witness_WriteWordStoresItsFourBytes :
    memState.mem.wf ∧ InMemory memState 0x101C ∧ ¬ InMemory memState 0x101D := by
  unfold InMemory
  decide

theorem witness_ReadWordReturnsTheWrittenWord : addiState.mem.wf ∧ InMemory addiState 0x102 := by
  unfold InMemory
  decide

theorem witness_OverlappingReadSeesTheWrittenBytes :
    addiState.mem.wf ∧ InMemory addiState 0xFFB ∧
    (0xFFB : Word).toNat + 4 < addiState.cfg.memStart + addiState.cfg.memSize ∧
    (0xFFB : Word).toNat + 1 < 4294967296 := by
  unfold InMemory
  decide

theorem witness_CanonicalMemoriesAgreeIfBytesAgree :
    Memory.wf addiState.mem ∧ Memory.wf (imageMemory [(0x100, 0xFFF30293)]) ∧
    ∀ a, addiState.mem.readByte a = Memory.readByte (imageMemory [(0x100, 0xFFF30293)]) a :=
  ⟨by decide, by decide, fun _ => rfl⟩

theorem addiState_inv : addiState.Inv := ⟨by decide, by decide, by decide, by decide⟩

theorem addiState_fetches : FetchesWord addiState 0xFFF30293 :=
  ⟨by decide, by decide, by decide⟩

theorem witness_HostWriteKeepsTheInvariant :
    addiState.Inv ∧ ∃ t, hostWriteWord addiState 0xFFFFFFFF 0xFFC = .next t :=
  ⟨addiState_inv, _, rfl⟩

theorem witness_HostWriteIsSeenByTheNextFetch :
    addiState.mem.wf ∧ InMemory addiState addiState.pc := by
  unfold InMemory
  decide

theorem witness_DecodeOfEncodeIsTheInstruction : Encoding.rv32i.wf = true := by decide

theorem witness_EncodeOfDecodeIsTheWord :
    (decode .rv32i 0xFFF30293 = .ok (.addi 5 6 0xFFF) ∧ Instr.addi 5 6 0xFFF ≠ .ecall) ∧
    decode .rv32i 0x000312F3 = .ok .ecall := by decide

theorem witness_UnknownOpcodesAreDecodeErrors :
    (0x00000080 : Word).extractLsb' 0 7 ∉ Encoding.rv32i.opcodes ∧
    FetchesWord (vec 0x0000008B [] []) 0x0000008B ∧
    (0x0000008B : Word).extractLsb' 0 7 ∉ (vec 0x0000008B [] []).cfg.enc.opcodes ∧
    Encoding.rv32i.wf = true :=
  ⟨by decide, ⟨by decide, by decide, by decide⟩, by decide, by decide⟩

/-- V-DEC-29, V-DEC-28, V-DEC-30, V-DEC-33. -/
theorem witness_LackedOpcodesAreDecodeErrors :
    (0x007302B3 : Word).extractLsb' 0 7 = 0x33 ∧ (0x0062A023 : Word).extractLsb' 0 7 = 0x23 ∧
    (0x0FF0000F : Word).extractLsb' 0 7 = 0x0F ∧ (0x00000001 : Word).extractLsb' 0 2 ≠ 3 := by
  decide

theorem witness_UnimplementedFunctsAreExecuteErrors_branch :
    (vec 0x0062C463 [] []).cfg.wf = true ∧ FetchesWord (vec 0x0062C463 [] []) 0x0062C463 ∧
    (0x0062C463 : Word).extractLsb' 0 7 = Encoding.rv32i.opcBranch ∧
    (0x0062C463 : Word).extractLsb' 12 3 ≠ Encoding.rv32i.f3Beq ∧
    (0x0062C463 : Word).extractLsb' 12 3 ≠ Encoding.rv32i.f3Bne :=
  ⟨by decide, ⟨by decide, by decide, by decide⟩, by decide, by decide, by decide⟩

theorem witness_UnimplementedFunctsAreExecuteErrors_imm :
    (vec 0x00131293 [] []).cfg.wf = true ∧ FetchesWord (vec 0x00131293 [] []) 0x00131293 ∧
    (0x00131293 : Word).extractLsb' 0 7 = Encoding.rv32i.opcImm ∧
    (0x00131293 : Word).extractLsb' 12 3 ≠ Encoding.rv32i.f3Addi ∧
    (0x00131293 : Word).extractLsb' 12 3 ≠ Encoding.rv32i.f3Slti ∧
    (0x00131293 : Word).extractLsb' 12 3 ≠ Encoding.rv32i.f3Sltiu :=
  ⟨by decide, ⟨by decide, by decide, by decide⟩, by decide, by decide, by decide, by decide⟩

theorem witness_UnimplementedFunctsAreExecuteErrors_load :
    (vec 0x00028303 [] []).cfg.wf = true ∧ FetchesWord (vec 0x00028303 [] []) 0x00028303 ∧
    (0x00028303 : Word).extractLsb' 0 7 = Encoding.rv32i.opcLoad ∧
    (0x00028303 : Word).extractLsb' 12 3 ≠ Encoding.rv32i.f3Lw :=
  ⟨by decide, ⟨by decide, by decide, by decide⟩, by decide, by decide⟩

theorem witness_UnimplementedFunctsAreExecuteErrors_system :
    (vec 0x00100073 [] []).cfg.wf = true ∧ FetchesWord (vec 0x00100073 [] []) 0x00100073 ∧
    (0x00100073 : Word).extractLsb' 0 7 = Encoding.rv32i.opcSystem ∧
    (0x00100073 : Word).extractLsb' 20 12 ≠ 0 :=
  ⟨by decide, ⟨by decide, by decide, by decide⟩, by decide, by decide⟩

theorem witness_DecodingDropsOnlyEcallsBits :
    (Encoding.rv32i.wf = true ∧ (0x000312F3 : Word).extractLsb' 0 7 = Encoding.rv32i.opcSystem ∧
      (0x000312F3 : Word).extractLsb' 20 12 = 0) ∧
    (decode .rv32i 0xFFF2A393 = .ok (.slti 7 5 0xFFF) ∧ Instr.slti 7 5 0xFFF ≠ .ecall) := by decide

theorem witness_ZeroOpcodeWordsAreDecodeErrors :
    Encoding.rv32i.wf = true ∧
    ((vec 0 [] []).terminated = false ∧ fetch (vec 0 [] []) = .ok 0) ∧
    ((vec 0x00000080 [] []).cfg.wf = true ∧ FetchesWord (vec 0x00000080 [] []) 0x00000080 ∧
      (0x00000080 : Word).extractLsb' 0 7 = 0) :=
  ⟨by decide, by decide, by decide, ⟨by decide, by decide, by decide⟩, by decide⟩

theorem witness_EncodedWordsFollowTheFormulas :
    imm12Ok (-2048) = true ∧ imm12Ok 2047 = true ∧ jDispOk (-1048576) = true ∧
    jDispOk 1048574 = true ∧ bDispOk (-4096) = true ∧ bDispOk 4094 = true := by decide

/-- One line of every form, at boundary operands. -/
theorem witness_AssemblerOperandsMeanTheirNumbers :
    (Asm.lui 31 0xFFFFF).wf = true ∧ (Asm.auipc 0 0xFFFFF).wf = true ∧
    (Asm.jal 31 (-1048576)).wf = true ∧ (Asm.jalr 0 (-2048) 31).wf = true ∧
    (Asm.beq 31 0 4094).wf = true ∧ (Asm.bne 0 31 (-4096)).wf = true ∧
    (Asm.addi 31 0 2047).wf = true ∧ (Asm.slti 0 31 (-2048)).wf = true ∧
    (Asm.sltiu 31 31 (-2048)).wf = true ∧ (Asm.lw 31 2047 0).wf = true ∧ Asm.ecall.wf = true ∧
    Asm.nop.wf = true ∧ (Asm.li 31 (-2048)).wf = true ∧ (Asm.mv 31 31).wf = true ∧
    (Asm.j 1048574).wf = true ∧ (Asm.beqz 31 (-4096)).wf = true ∧ (Asm.bnez 31 4094).wf = true ∧
    (Asm.seqz 31 0).wf = true := by decide

theorem witness_StepRunsTheDecodedInstruction_fetch_error :
    ((vec 0 [] []).setPc 0xFFD).terminated = false ∧
    fetch ((vec 0 [] []).setPc 0xFFD) = .error (.memoryBoundsError 0xFFD) := by decide

theorem witness_StepRunsTheDecodedInstruction_zero :
    (vec 0 [] []).terminated = false ∧ fetch (vec 0 [] []) = .ok 0 := by decide

theorem witness_StepRunsTheDecodedInstruction_reject :
    FetchesWord (vec 0x00000080 [] []) 0x00000080 ∧
    decode (vec 0x00000080 [] []).cfg.enc 0x00000080 = .error (.unimplementedOpcode 0) :=
  ⟨⟨by decide, by decide, by decide⟩, by decide⟩

theorem witness_StepRunsTheDecodedInstruction_next :
    FetchesWord addiState 0xFFF30293 ∧
    decode addiState.cfg.enc 0xFFF30293 = .ok (.addi 5 6 0xFFF) ∧
    ∃ t, exec (.addi 5 6 0xFFF) addiState = .next t :=
  ⟨addiState_fetches, by decide, _, rfl⟩

theorem witness_StepRunsTheDecodedInstruction_fault :
    FetchesWord (vec 0x00000073 [(10, 99)] []) 0x00000073 ∧
    decode (vec 0x00000073 [(10, 99)] []).cfg.enc 0x00000073 = .ok .ecall ∧
    exec .ecall (vec 0x00000073 [(10, 99)] []) = .fault (.unknownSystemCall 99) :=
  ⟨⟨by decide, by decide, by decide⟩, by decide, rfl⟩

theorem witness_FetchReadsTheWordAtThePc :
    InMemory ((vec 0 [] []).setPc 0xFFC) 0xFFC ∧ ¬ InMemory ((vec 0 [] []).setPc 0xFFD) 0xFFD ∧
    ((vec 0 [] []).setPc 0xFFD).terminated = false := by
  unfold InMemory
  decide

theorem witness_ZeroWordIsSkipped :
    (vec 0 [] []).terminated = false ∧ fetch (vec 0 [] []) = .ok 0 := by decide

/-- An instruction with `rd = 0` in a state whose register 0 does not hold 0. -/
theorem witness_X0IsForcedToZeroAfterEveryInstruction :
    FetchesWord (vec 0x00001037 [(0, 9)] []) 0x00001037 ∧
    decode (vec 0x00001037 [(0, 9)] []).cfg.enc 0x00001037 = .ok (.lui 0 1) ∧
    ∃ t, exec (.lui 0 1) (vec 0x00001037 [(0, 9)] []) = .next t :=
  ⟨⟨by decide, by decide, by decide⟩, by decide, _, rfl⟩

theorem witness_X0ReadsZeroAlongEveryRun :
    ∃ t, Reaches (State.resetWith addiState.cfg addiState.regs 0x100 addiState.mem) t ∧
      t.pc = 0x104 :=
  ⟨_, .next (.refl _) rfl, by decide⟩

theorem witness_NoStepAfterTheRunEnded :
    addiState.setTerminated.terminated = true ∧ addiState.terminated = false := by decide

theorem witness_FatalErrorsAreTheTaxonomys :
    step ((vec 0 [] []).setPc 0x1000) = .fault (.memoryBoundsError 0x1000) ∧
    step (vec 0x0000008B [] []) = .fault (.decodeError 0x0B) ∧
    step (vec 0x0062F463 [] []) = .fault (.executeError .branch 7) ∧
    step (vec 0x00134293 [] []) = .fault (.executeError .imm 4) ∧
    step (vec 0x00028303 [] []) = .fault (.executeError .load 0) ∧
    step (vec 0x30200073 [] []) = .fault (.executeError .system 0x302) ∧
    step (vec 0xFFE280E7 [] []) = .fault (.executeError .jalr 0x67) ∧
    step (vec 0x0002A303 [(5, 0xFFD)] []) = .fault (.memoryBoundsError 0xFFD) ∧
    step (vec 0x00000073 [] []) = .fault (.unknownSystemCall 0) :=
  ⟨rfl, rfl, rfl, rfl, rfl, rfl, rfl, rfl, rfl⟩

theorem witness_OnlyATerminatingEcallSetsTerminated :
    (∃ t, step (vec 0x00000073 [(10, 1)] []) = .next t ∧ t.terminated = true) ∧
    ∃ t, step addiState = .next t ∧ t.terminated = false :=
  ⟨⟨_, rfl, by decide⟩, _, rfl, by decide⟩

theorem witness_NoStepsChangeMemoryOrParameters :
    ∃ t, Reaches addiState t ∧ t.pc = 0x104 :=
  ⟨_, .next (.refl _) rfl, by decide⟩

theorem witness_PcMovesAsTheSummarySays :
    (∃ t, step (vec 0 [] []) = .next t) ∧ (∃ t, step (vec 0xFFDFF0EF [] []) = .next t) ∧
    (∃ t, step (withCfg (vec 0xFFE280E7 [(5, 0x205)] []) standardCfg) = .next t) ∧
    (∃ t, step (vec 0x00628463 [] []) = .next t) ∧
    ∃ t, step (vec 0x80629063 [(5, 1)] []) = .next t :=
  ⟨⟨_, rfl⟩, ⟨_, rfl⟩, ⟨_, rfl⟩, ⟨_, rfl⟩, _, rfl⟩

theorem witness_EvenPcStaysEven :
    (vec 0x7E000FE3 [] []).pc.getLsbD 0 = false ∧ ∃ t, step (vec 0x7E000FE3 [] []) = .next t :=
  ⟨by decide, _, rfl⟩

theorem witness_InvariantIsKeptByEveryStep : addiState.Inv ∧ ∃ t, step addiState = .next t :=
  ⟨addiState_inv, _, rfl⟩

theorem witness_InvariantHoldsAtReset :
    addiState.cfg.wf = true ∧ addiState.mem.wf ∧
    addiState.mem.within addiState.cfg.memStart addiState.cfg.memSize := by decide

theorem witness_ResetFollowsItsParameters : (31 : RegIdx) ≠ 0 := by decide

/-- A register that is neither read nor written, one that is written and not read, and a fault. -/
theorem witness_UnreadRegistersHaveNoInfluence :
    ((7 : RegIdx) ∉ regsRead addiState.cfg (.addi 5 6 0xFFF) ∧
      regWritten addiState.cfg (.addi 5 6 0xFFF) ≠ some 7 ∧
      ∃ t, exec (.addi 5 6 0xFFF) addiState = .next t) ∧
    ((5 : RegIdx) ∉ regsRead addiState.cfg (.addi 5 6 0xFFF) ∧
      regWritten addiState.cfg (.addi 5 6 0xFFF) = some 5) ∧
    ((9 : RegIdx) ∉ regsRead addiState.cfg .ecall ∧
      exec .ecall addiState = .fault (.unknownSystemCall 0)) :=
  ⟨⟨by decide, by decide, _, rfl⟩, ⟨by decide, by decide⟩, by decide, rfl⟩

theorem witness_LuiLoadsTheUpperImmediate :
    Encoding.rv32i.wf = true ∧ (0x123452B7 : Word).extractLsb' 0 7 = Encoding.rv32i.opcLui := by decide

theorem witness_AuipcAddsTheUpperImmediateToThePc :
    Encoding.rv32i.wf = true ∧ (0xFFFFF297 : Word).extractLsb' 0 7 = Encoding.rv32i.opcAuipc := by
  decide

theorem witness_JalJumpsAndLinks :
    (Encoding.rv32i.wf = true ∧ (0x00C000EF : Word).extractLsb' 0 7 = Encoding.rv32i.opcJal) ∧
    addiState.cfg.jalLinkMode = .literal ∧
    (withCfg addiState standardCfg).cfg.jalLinkMode = .standard := by decide

theorem witness_JalrUnsupportedIsAnExecuteError :
    (vec 0xFFE280E7 [] []).cfg.wf = true ∧ FetchesWord (vec 0xFFE280E7 [] []) 0xFFE280E7 ∧
    (0xFFE280E7 : Word).extractLsb' 0 7 = (vec 0xFFE280E7 [] []).cfg.enc.opcJalr ∧
    (vec 0xFFE280E7 [] []).cfg.jalrMode = .unsupported :=
  ⟨by decide, ⟨by decide, by decide, by decide⟩, by decide, by decide⟩

theorem witness_JalrStandardJumpsToTheRegister :
    (Encoding.rv32i.wf = true ∧ (0xFFE280E7 : Word).extractLsb' 0 7 = Encoding.rv32i.opcJalr) ∧
    (withCfg addiState standardCfg).cfg.jalrMode = .standard := by decide

theorem witness_BeqBranchesOnEqualPatterns :
    (Encoding.rv32i.wf = true ∧ (0x00628463 : Word).extractLsb' 0 7 = Encoding.rv32i.opcBranch ∧
      (0x00628463 : Word).extractLsb' 12 3 = Encoding.rv32i.f3Beq) ∧
    addiState.readReg 5 = addiState.readReg 7 ∧ addiState.readReg 5 ≠ addiState.readReg 6 := by
  decide

theorem witness_BneBranchesOnDifferentPatterns :
    (Encoding.rv32i.wf = true ∧ (0xFE009CE3 : Word).extractLsb' 0 7 = Encoding.rv32i.opcBranch ∧
      (0xFE009CE3 : Word).extractLsb' 12 3 = Encoding.rv32i.f3Bne) ∧
    addiState.readReg 5 ≠ addiState.readReg 6 ∧ addiState.readReg 5 = addiState.readReg 7 := by
  decide

theorem witness_AddiAddsTheImmediate :
    Encoding.rv32i.wf = true ∧ (0xFFF30293 : Word).extractLsb' 0 7 = Encoding.rv32i.opcImm ∧
    (0xFFF30293 : Word).extractLsb' 12 3 = Encoding.rv32i.f3Addi := by decide

theorem witness_SltiComparesSigned :
    Encoding.rv32i.wf = true ∧ (0xFFF2A393 : Word).extractLsb' 0 7 = Encoding.rv32i.opcImm ∧
    (0xFFF2A393 : Word).extractLsb' 12 3 = Encoding.rv32i.f3Slti := by decide

theorem witness_SltiuComparesUnsigned :
    Encoding.rv32i.wf = true ∧ (0xFFF2B393 : Word).extractLsb' 0 7 = Encoding.rv32i.opcImm ∧
    (0xFFF2B393 : Word).extractLsb' 12 3 = Encoding.rv32i.f3Sltiu := by decide

/-- V-LW-7 and V-LW-8: the last word inside the memory, and the first address past it. -/
theorem witness_LwLoadsTheWord :
    (Encoding.rv32i.wf = true ∧ (0x0002A303 : Word).extractLsb' 0 7 = Encoding.rv32i.opcLoad ∧
      (0x0002A303 : Word).extractLsb' 12 3 = Encoding.rv32i.f3Lw) ∧
    InMemory (vec 0x0002A303 [(5, 0xFFC)] [])
      ((vec 0x0002A303 [(5, 0xFFC)] []).readReg 5 + (0 : Imm12).signExtend 32) ∧
    ¬ InMemory (vec 0x0002A303 [(5, 0xFFD)] [])
      ((vec 0x0002A303 [(5, 0xFFD)] []).readReg 5 + (0 : Imm12).signExtend 32) := by
  unfold InMemory
  decide

theorem witness_EcallActsOnTheHooksAnswer :
    (Encoding.rv32i.wf = true ∧ (0x00000073 : Word).extractLsb' 0 7 = Encoding.rv32i.opcSystem ∧
      (0x00000073 : Word).extractLsb' 20 12 = 0) ∧
    hookAnswer (hookCfg .continues).hook addiState.syscallArgs = .continues ∧
    hookAnswer .reference ⟨1, 0, 0, 0, 0, 0⟩ = .terminate ∧
    hookAnswer .reference ⟨99, 0, 0, 0, 0, 0⟩ = .fail (.unknownSystemCall 99) := by decide

theorem witness_ReferenceHookTerminatesOnlyOnCallCodeOne :
    ((vec 0x00000073 [(10, 1)] []).cfg.hook = .reference ∧
      (vec 0x00000073 [(10, 1)] []).readReg 10 = 1) ∧
    (vec 0x00000073 [] []).cfg.hook = .reference ∧ (vec 0x00000073 [] []).readReg 10 ≠ 1 := by decide

/-- A pc with room for a word, and one without. -/
theorem witness_LoadedWordIsFetchedNext :
    memState.mem.wf ∧ ¬ InMemory memState memState.pc ∧ addiState.mem.wf ∧
    InMemory addiState addiState.pc := by
  unfold InMemory
  decide

/-- P4c's shape: one step to a word that is a decode error; and one step to the end of a run. -/
theorem witness_RunsEndInExactlyTheTwoWays :
    (∃ t, ReachesIn 1 (vec 0x00000073 [(10, 1)] []) t ∧ t.terminated = true) ∧
    ∃ t, ReachesIn 1 (vec 0x00100293 [] [(0x104, 0x00000080)]) t ∧
      step t = .fault (.decodeError 0) :=
  ⟨⟨_, .succ rfl (.zero _), by decide⟩, _, .succ rfl (.zero _), rfl⟩

theorem witness_SelfJumpRunsForEver :
    FetchesWord (vec 0x0000006F [] []) 0x0000006F ∧
    decode (vec 0x0000006F [] []).cfg.enc 0x0000006F = .ok (.jal 0 0) ∧
    (vec 0x0000006F [] []).readReg 0 = 0 :=
  ⟨⟨by decide, by decide, by decide⟩, by decide, by decide⟩

end Sys2Proof.Tests
end

/-! PROOFS. The step invariant (00_scope.md R8, 10_state.md R21, R30). -/

namespace Sys2Proof.Machine

/-- No instruction stores to memory or changes a parameter (R50, log 1). -/
theorem exec_keeps_mem_cfg {i : Instr} {s t : State} (h : exec i s = .next t) :
    t.mem = s.mem ∧ t.cfg = s.cfg := by
  obtain ⟨rd, v, p, hw⟩ | ⟨p, hw⟩ | ⟨-, -, rfl⟩ := exec_next_cases h
  · exact ⟨hw.rest.mem, hw.rest.cfg⟩
  · exact ⟨hw.rest.mem, hw.rest.cfg⟩
  · simp

/-- No step changes the memory or a parameter: a skipped word only moves the pc, and the enforcer
touches only `x0`. -/
theorem step_keeps_mem_cfg {s t : State} (h : step s = .next t) :
    t.mem = s.mem ∧ t.cfg = s.cfg := by
  obtain ⟨-, w, -, ⟨-, rfl⟩ | ⟨-, i, u, -, hu, rfl⟩⟩ := step_next_cases h
  · simp
  · simpa using exec_keeps_mem_cfg hu

/-- `x0` stays 0: a skipped word writes no register, and the enforcer runs after an executed
instruction (R102, R107). -/
theorem step_keeps_x0_zero {s t : State} (h : step s = .next t) (h0 : s.readReg 0 = 0) :
    t.readReg 0 = 0 := by
  obtain ⟨-, w, -, ⟨-, rfl⟩ | ⟨-, i, u, -, -, rfl⟩⟩ := step_next_cases h
  · simpa using h0
  · simp [State.readReg_enforceX0]

/-- Settles O36: a step changes neither memory nor parameters, and it leaves `x0` at 0. -/
theorem invariantIsKeptByEveryStep : Obligations.InvariantIsKeptByEveryStep := by
  intro s t hs h
  obtain ⟨hmem, hcfg⟩ := step_keeps_mem_cfg h
  exact
    { cfg_wf := hcfg ▸ hs.cfg_wf
      x0_zero := step_keeps_x0_zero h hs.x0_zero
      mem_wf := hmem ▸ hs.mem_wf
      mem_within := hmem ▸ hcfg ▸ hs.mem_within }

end Sys2Proof.Machine

/-! PROOFS. Reset: what its parameters become, and the invariant it meets (10_state.md R33,
70_reset_and_hazards.md R200). -/

namespace Sys2Proof.Machine

/-- A register read after reset (R33). -/
theorem State.readReg_resetWith (c : Config) (r : Vector Word 32) (p : Word) (m : Memory)
    (i : RegIdx) : (State.resetWith c r p m).readReg i = if i = 0 then 0 else r[i.toNat] := by
  by_cases hi : i = 0
  · subst hi
    exact Vector.getElem_set_self _
  · have hne : 0 ≠ i.toNat := fun h => hi ((toNat_zero_iff i).1 h.symm)
    rw [if_neg hi]
    exact Vector.getElem_set_ne (by decide) i.isLt hne

/-- Every register is 0 at `State.reset` (D4). -/
theorem State.readReg_reset (i : RegIdx) : State.reset.readReg i = 0 := by
  simp [State.reset, State.readReg_resetWith]

/-- An admissible reset meets the invariant (R33, R200). -/
theorem State.resetWith_inv {c : Config} (r : Vector Word 32) (p : Word) {m : Memory}
    (hc : c.wf = true) (hm : m.wf) (hin : m.within c.memStart c.memSize) :
    (State.resetWith c r p m).Inv where
  cfg_wf := hc
  x0_zero := by simp [State.readReg_resetWith]
  mem_wf := hm
  mem_within := hin

/-- Settles O37: the invariant's parts are the hypotheses and the reset rule for `x0`; the
parameters and the empty memory of `State.reset` meet the hypotheses. -/
theorem invariantHoldsAtReset : Obligations.InvariantHoldsAtReset :=
  ⟨fun _ r p _ hc hm hin => State.resetWith_inv r p hc hm hin,
    State.resetWith_inv _ _ (by decide) (by simp [Memory.wf]) (by simp [Memory.within])⟩

/-- Settles O38: each field of the reset state is read off the reset rule. -/
theorem resetFollowsItsParameters : Obligations.ResetFollowsItsParameters := by
  refine ⟨fun c r p m => ⟨?_, fun i hi => ?_, rfl, rfl, rfl, rfl⟩, State.readReg_reset,
    fun a => rfl, rfl, rfl, rfl, rfl⟩
  · simp [State.readReg_resetWith]
  · rw [State.readReg_resetWith, if_neg hi]

end Sys2Proof.Machine

/-! PROOFS. The canonical form determines the memory (10_state.md R30, log 9). -/

namespace Sys2Proof.Machine

/-- A listed byte of a canonical memory is what its address reads as. -/
theorem Memory.readByte_of_mem {m : Memory} (hs : m.Pairwise (fun c d => c.1 < d.1))
    {c : Host.Cell} (hc : c ∈ m) : m.readByte c.1 = c.2 := by
  induction m with
  | nil => cases hc
  | cons d m ih =>
    obtain ⟨hd, hm⟩ := List.pairwise_cons.1 hs
    rw [Memory.readByte]
    rcases List.mem_cons.1 hc with rfl | hc
    · rw [if_pos rfl]
    · rw [if_neg (hd c hc).ne', ih hm hc]

/-- The entries of a canonical memory are exactly its bytes that differ from the unlisted one. -/
theorem Memory.mem_iff_readByte {m : Memory} (hm : m.wf) (c : Host.Cell) :
    c ∈ m ↔ m.readByte c.1 = c.2 ∧ c.2 ≠ unlistedByte := by
  obtain ⟨hs, hne⟩ := hm
  refine ⟨fun hc => ⟨Memory.readByte_of_mem hs hc, hne c hc⟩, fun ⟨hr, hv⟩ => ?_⟩
  have hlisted : ∃ d ∈ m, d.1 = c.1 := by
    by_contra! h
    exact hv (hr ▸ Memory.readByte_unlisted h)
  obtain ⟨d, hd, ha⟩ := hlisted
  have hb : d.2 = c.2 := by rw [← Memory.readByte_of_mem hs hd, ha, hr]
  exact (Prod.ext ha hb : d = c) ▸ hd

theorem Memory.nodup_of_wf {m : Memory} (hm : m.wf) : m.Nodup :=
  hm.1.imp fun h => ne_of_apply_ne Prod.fst h.ne

/-- Settles O11: the bytes fix which entries a canonical memory lists, and rising addresses fix
their order. -/
theorem canonicalMemoriesAgreeIfBytesAgree : Obligations.CanonicalMemoriesAgreeIfBytesAgree := by
  intro m n hm hn hbytes
  have hentries : ∀ c, c ∈ m ↔ c ∈ n := fun c => by
    rw [Memory.mem_iff_readByte hm, Memory.mem_iff_readByte hn, hbytes]
  have hperm : m.Perm n :=
    (List.perm_ext_iff_of_nodup (Memory.nodup_of_wf hm) (Memory.nodup_of_wf hn)).2 hentries
  exact hperm.eq_of_pairwise (fun c d _ _ hcd hdc => absurd hcd hdc.asymm) hm.1 hn.1

end Sys2Proof.Machine

/-! PROOFS. `x0` after an executed instruction and along a run (10_state.md R21, 41_cycle.md R107). -/

namespace Sys2Proof.Machine

/-- The cycle of a fetched word that decodes (R105). -/
theorem FetchesWord.cycle_eq {s : State} {w : Word} {i : Instr} (h : FetchesWord s w)
    (hd : decode s.cfg.enc w = .ok i) : cycle s = executeAndEnforce i s := by
  simp only [cycle, h.running, h.fetched, cycleOn, if_neg h.nonzero, hd]
  rfl

/-- Settles O28: the cycle retires in the instruction's next state after the enforcer, which changes
`x0` alone. -/
theorem x0IsForcedToZeroAfterEveryInstruction :
    Obligations.X0IsForcedToZeroAfterEveryInstruction := by
  intro s t w i hf hd ht
  refine ⟨t.enforceX0, ?_, ?_, fun r hr => ?_, rfl, rfl, rfl, rfl⟩
  · rw [hf.cycle_eq hd, executeAndEnforce, ht]
  · rw [State.readReg_enforceX0, if_pos rfl]
  · rw [State.readReg_enforceX0, if_neg hr]

/-- What holds at the start of a run and is kept by every step holds along the run. -/
theorem Reaches.keeps {P : State → Prop} (hstep : ∀ s t, step s = .next t → P s → P t)
    {s t : State} (h : Reaches s t) (hs : P s) : P t := by
  induction h with
  | refl => exact hs
  | next _ last ih => exact hstep _ _ last ih

/-- Settles O29: reset puts 0 into `x0` and every step leaves 0 there. -/
theorem x0ReadsZeroAlongEveryRun : Obligations.X0ReadsZeroAlongEveryRun := by
  intro c r p m t ht
  refine ht.keeps (P := fun s => s.readReg 0 = 0) (fun _ _ => step_keeps_x0_zero) ?_
  rw [State.readReg_resetWith, if_pos rfl]

end Sys2Proof.Machine

/-! PROOFS. The termination flag (10_state.md R28, 41_cycle.md R108, 47_system.md R158). -/

namespace Sys2Proof.Machine

/-- An ECALL whose hook answers `Terminate` sets the flag and advances (R155 (b)). -/
theorem exec_ecall_of_terminate {s : State}
    (h : hookAnswer s.cfg.hook s.syscallArgs = .terminate) :
    exec .ecall s = .next s.setTerminated.advancePc := by
  simp [exec, execEcall, h]

/-- In a run that has not ended, the instructions that end it are the terminating ECALLs (R158). -/
theorem exec_sets_terminated_iff {i : Instr} {s t : State} (hs : s.terminated = false)
    (h : exec i s = .next t) : t.terminated = true ↔
      i = .ecall ∧ hookAnswer s.cfg.hook s.syscallArgs = .terminate := by
  constructor
  · intro ht
    obtain ⟨rd, v, p, hw⟩ | ⟨p, hw⟩ | ⟨hi, hk, -⟩ := exec_next_cases h
    · simp [hw.rest.terminated, hs] at ht
    · simp [hw.rest.terminated, hs] at ht
    · exact ⟨hi, hk⟩
  · rintro ⟨rfl, hk⟩
    rw [exec_ecall_of_terminate hk] at h
    cases h
    simp

/-- Settles O32: a skipped word keeps the flag, the enforcer does not touch it, and of the
instructions only a terminating ECALL sets it. -/
theorem onlyATerminatingEcallSetsTerminated : Obligations.OnlyATerminatingEcallSetsTerminated := by
  intro s t h
  obtain ⟨hs, w, hw, ⟨rfl, rfl⟩ | ⟨hne, i, u, hd, hu, rfl⟩⟩ := step_next_cases h
  · rw [State.advancePc_terminated, hs]
    refine ⟨nofun, ?_⟩
    rintro ⟨w, hf, -⟩
    cases hf.fetched.symm.trans hw
    exact absurd rfl hf.nonzero
  · rw [State.enforceX0_terminated, exec_sets_terminated_iff hs hu]
    constructor
    · rintro ⟨rfl, hk⟩
      exact ⟨w, ⟨hs, hw, hne⟩, hd, hk⟩
    · rintro ⟨w', hf, hd', hk⟩
      cases hf.fetched.symm.trans hw
      cases hd.symm.trans hd'
      exact ⟨rfl, hk⟩

end Sys2Proof.Machine

/-! PROOFS. The pc after an instruction (10_state.md R25, 41_cycle.md R106). -/

namespace Sys2Proof.Machine

/-- The pc an instruction that goes on leaves, in bit vector form (R25). -/
def State.nextPc (s : State) : Instr → Word
  | .jal _ o => s.pc + o.signExtend 32 * 2
  | .jalr _ _ rs1 o => (s.readReg rs1 + o.signExtend 32) &&& 0xFFFFFFFE
  | .beq rs1 rs2 o =>
    if s.readReg rs1 = s.readReg rs2 then s.pc + o.signExtend 32 * 2 else s.pc + 4
  | .bne rs1 rs2 o =>
    if s.readReg rs1 ≠ s.readReg rs2 then s.pc + o.signExtend 32 * 2 else s.pc + 4
  | _ => s.pc + 4

theorem pc_of_writeAndAdvance {s t : State} {rd : RegIdx} {v : Word}
    (h : writeAndAdvance s rd v = .next t) : t.pc = s.pc + 4 := by
  obtain ⟨u, hu, hw⟩ := writeAndAdvance_next s rd v
  cases hu.symm.trans h
  exact hw.pc

theorem pc_of_branchTo {s t : State} {taken : Bool} {o : Imm12} (h : branchTo s taken o = .next t) :
    t.pc = if taken then s.pc + o.signExtend 32 * 2 else s.pc + 4 := by
  obtain ⟨u, hu, hw⟩ := branchTo_next s taken o
  cases hu.symm.trans h
  exact hw.pc

/-- The pc of every instruction that goes on is the summary's (R25). -/
theorem exec_next_pc {i : Instr} {s t : State} (h : exec i s = .next t) : t.pc = s.nextPc i := by
  cases i with
  | lui rd imm => exact pc_of_writeAndAdvance h
  | auipc rd imm => exact pc_of_writeAndAdvance h
  | jal rd offset => cases h; simp [State.nextPc, State.jumpTarget_eq]
  | jalr rd funct3 rs1 offset =>
    simp only [exec, execJalr] at h
    split at h
    · cases h
    · cases h; simp [State.nextPc, clearBit0, State.basePlusImm_eq]
  | beq rs1 rs2 offset => simpa [State.nextPc, equalPatterns] using pc_of_branchTo h
  | bne rs1 rs2 offset => simpa [State.nextPc, equalPatterns] using pc_of_branchTo h
  | addi rd rs1 imm => exact pc_of_writeAndAdvance h
  | slti rd rs1 imm => exact pc_of_writeAndAdvance h
  | sltiu rd rs1 imm => exact pc_of_writeAndAdvance h
  | lw rd rs1 imm =>
    simp only [exec, execLw] at h
    split at h
    · exact pc_of_writeAndAdvance h
    · cases h
  | ecall =>
    simp only [exec, execEcall] at h
    split at h <;> cases h <;> simp [State.nextPc]

/-- Settles O34: a skipped word advances the pc, and the enforcer keeps the instruction's. -/
theorem pcMovesAsTheSummarySays : Obligations.PcMovesAsTheSummarySays := by
  intro s t h
  obtain ⟨hs, w, hw, ⟨rfl, rfl⟩ | ⟨hne, i, u, hd, hu, rfl⟩⟩ := step_next_cases h
  · exact .inl ⟨hw, State.advancePc_pc s⟩
  · refine .inr ⟨w, i, ⟨hs, hw, hne⟩, hd, ?_⟩
    rw [State.enforceX0_pc, exec_next_pc hu]
    cases i <;> rfl

end Sys2Proof.Machine

/-! PROOFS. Noninterference: a register that is not read (10_state.md R23). -/

namespace Sys2Proof.Machine

/-- An instruction's answer with `v` in register `r` of the next state, unless `written`, the
register the instruction writes, is `r`. -/
def withUnreadReg (written : Option RegIdx) (r : RegIdx) (v : Word) : Result → Result
  | .next t => .next (if written = some r then t else t.withReg r v)
  | .fault e => .fault e
  | .refused e => .refused e

@[simp] theorem State.advancePc_withReg (s : State) (r : RegIdx) (v : Word) :
    (s.withReg r v).advancePc = s.advancePc.withReg r v := rfl
@[simp] theorem State.setPc_withReg (s : State) (r : RegIdx) (v p : Word) :
    (s.withReg r v).setPc p = (s.setPc p).withReg r v := rfl
@[simp] theorem State.jumpTarget_withReg (s : State) (r : RegIdx) (v : Word) (o : Imm20) :
    (s.withReg r v).jumpTarget o = s.jumpTarget o := rfl
@[simp] theorem memRead_withReg (s : State) (r : RegIdx) (v a : Word) :
    memRead (s.withReg r v) a = memRead s a := rfl

theorem State.readReg_withReg_of_ne {r q : RegIdx} (h : r ≠ q) (s : State) (v : Word) :
    (s.withReg r v).readReg q = s.readReg q := by
  rw [State.readReg_withReg, if_neg h.symm]

theorem State.basePlusImm_withReg_of_ne {r rs1 : RegIdx} (h : r ≠ rs1) (s : State) (v : Word)
    (imm : Imm12) : (s.withReg r v).basePlusImm rs1 imm = s.basePlusImm rs1 imm := by
  simp only [State.basePlusImm, State.readReg_withReg_of_ne h]

theorem State.syscallArgs_withReg {s : State} {r : RegIdx} (h : r ∉ regsRead s.cfg .ecall)
    (v : Word) : (s.withReg r v).syscallArgs = s.syscallArgs := by
  simp only [regsRead, List.mem_cons, List.not_mem_nil, or_false, not_or] at h
  obtain ⟨h0, h1, h2, h3, h4, h5⟩ := h
  simp only [State.syscallArgs, State.readReg_withReg_of_ne h0, State.readReg_withReg_of_ne h1,
    State.readReg_withReg_of_ne h2, State.readReg_withReg_of_ne h3, State.readReg_withReg_of_ne h4,
    State.readReg_withReg_of_ne h5]

/-- A register write after a change of register `r`, the write to `x0` being none (R21). -/
theorem State.writeReg_withReg_eq (s : State) (r rd : RegIdx) (v x : Word) :
    (s.withReg r v).writeReg rd x = if (if rd = 0 then none else some rd) = some r
      then s.writeReg rd x else (s.writeReg rd x).withReg r v := by
  rw [State.writeReg_withReg]
  by_cases h0 : rd = 0
  · simp [h0]
  · simp only [h0, ne_eq, not_false_eq_true, and_true, if_false, Option.some.injEq]

/-- The end of a register-writing rule. -/
theorem writeAndAdvance_withReg (s : State) (r rd : RegIdx) (v x : Word) :
    writeAndAdvance (s.withReg r v) rd x =
      withUnreadReg (if rd = 0 then none else some rd) r v (writeAndAdvance s rd x) := by
  rw [writeAndAdvance, State.writeReg_withReg_eq, apply_ite State.advancePc,
    State.advancePc_withReg]
  rfl

/-- The end of a branch. -/
theorem branchTo_withReg (s : State) (r : RegIdx) (v : Word) (taken : Bool) (o : Imm12) :
    branchTo (s.withReg r v) taken o = withUnreadReg none r v (branchTo s taken o) := by
  cases taken <;> rfl

/-- An instruction that does not read register `r` answers the same whatever `r` holds, but for `r`
itself (R23). -/
theorem exec_withReg {i : Instr} {s : State} {r : RegIdx} (h : r ∉ regsRead s.cfg i) (v : Word) :
    exec i (s.withReg r v) = withUnreadReg (regWritten s.cfg i) r v (exec i s) := by
  cases i with
  | lui rd imm => exact writeAndAdvance_withReg ..
  | auipc rd imm => exact writeAndAdvance_withReg ..
  | jal rd offset =>
    simp only [exec, execJal, State.jumpTarget_withReg, State.setPc_withReg,
      State.writeReg_withReg_eq]
    rfl
  | jalr rd funct3 rs1 offset =>
    cases hm : s.cfg.jalrMode with
    | unsupported => simp [exec, execJalr, hm, raise, withUnreadReg]
    | standard =>
      have hne : r ≠ rs1 := by simpa [regsRead, hm] using h
      simp [exec, execJalr, hm, State.basePlusImm_withReg_of_ne hne, State.writeReg_withReg_eq,
        regWritten, withUnreadReg]
  | beq rs1 rs2 offset =>
    obtain ⟨h1, h2⟩ : r ≠ rs1 ∧ r ≠ rs2 := by simpa [regsRead] using h
    simp only [exec, execBeq, State.readReg_withReg_of_ne h1, State.readReg_withReg_of_ne h2]
    exact branchTo_withReg ..
  | bne rs1 rs2 offset =>
    obtain ⟨h1, h2⟩ : r ≠ rs1 ∧ r ≠ rs2 := by simpa [regsRead] using h
    simp only [exec, execBne, State.readReg_withReg_of_ne h1, State.readReg_withReg_of_ne h2]
    exact branchTo_withReg ..
  | addi rd rs1 imm =>
    have hne : r ≠ rs1 := by simpa [regsRead] using h
    simp only [exec, execAddi, State.basePlusImm_withReg_of_ne hne]
    exact writeAndAdvance_withReg ..
  | slti rd rs1 imm =>
    have hne : r ≠ rs1 := by simpa [regsRead] using h
    simp only [exec, execSlti, State.readReg_withReg_of_ne hne]
    exact writeAndAdvance_withReg ..
  | sltiu rd rs1 imm =>
    have hne : r ≠ rs1 := by simpa [regsRead] using h
    simp only [exec, execSltiu, State.readReg_withReg_of_ne hne]
    exact writeAndAdvance_withReg ..
  | lw rd rs1 imm =>
    have hne : r ≠ rs1 := by simpa [regsRead] using h
    simp only [exec, execLw, State.basePlusImm_withReg_of_ne hne, memRead_withReg]
    split
    · exact writeAndAdvance_withReg ..
    · rfl
  | ecall =>
    simp only [exec, execEcall, State.withReg_cfg, State.syscallArgs_withReg h]
    split <;> rfl

/-- Settles O39: the changed register passes through the instruction into the next state, or is
overwritten there, and a fault carries no state. -/
theorem unreadRegistersHaveNoInfluence : Obligations.UnreadRegistersHaveNoInfluence := by
  intro i s r v hr
  refine ⟨fun t ht => ?_, fun e he => ?_⟩
  · rw [exec_withReg hr, ht, withUnreadReg]
  · rw [exec_withReg hr, he, withUnreadReg]

end Sys2Proof.Machine

/-! PROOFS. The parity of the pc (20_memory.md R48, 43_jumps.md R120, R122, 44_branches.md R130). -/

namespace Sys2Proof.Machine

/-- Bit 0 of a sum has no carry in. -/
theorem getLsbD_zero_add (p d : Word) : (p + d).getLsbD 0 = (p.getLsbD 0 ^^ d.getLsbD 0) := by
  rw [BitVec.getLsbD_add (by decide)]
  simp

/-- A displacement stored halved is even (R68, R69). -/
theorem getLsbD_zero_mul_two (d : Word) : (d * 2).getLsbD 0 = false := by
  have hdouble : d * 2 = d + d := BitVec.mul_two
  rw [hdouble, getLsbD_zero_add, Bool.xor_self]

/-- An even displacement keeps the parity of the pc. -/
theorem getLsbD_zero_add_even {p d : Word} (hp : p.getLsbD 0 = false) (hd : d.getLsbD 0 = false) :
    (p + d).getLsbD 0 = false := by
  rw [getLsbD_zero_add, hp, hd, Bool.xor_false]

theorem getLsbD_zero_add_four {p : Word} (hp : p.getLsbD 0 = false) : (p + 4).getLsbD 0 = false :=
  getLsbD_zero_add_even hp (by decide)

/-- Every instruction leaves an even pc even: the advance and the halved displacements are even, and
JALR clears bit 0 of its target. -/
theorem State.nextPc_even {s : State} (hp : s.pc.getLsbD 0 = false) (i : Instr) :
    (s.nextPc i).getLsbD 0 = false := by
  have hjump : ∀ d : Word, (s.pc + d * 2).getLsbD 0 = false := fun d =>
    getLsbD_zero_add_even hp (getLsbD_zero_mul_two d)
  cases i with
  | jal rd offset => exact hjump _
  | jalr rd funct3 rs1 offset => simp [State.nextPc]
  | beq rs1 rs2 offset =>
    rw [State.nextPc]
    split
    · exact hjump _
    · exact getLsbD_zero_add_four hp
  | bne rs1 rs2 offset =>
    rw [State.nextPc]
    split
    · exact hjump _
    · exact getLsbD_zero_add_four hp
  | _ => exact getLsbD_zero_add_four hp

/-- Settles O35: a skipped word advances by 4, and an executed instruction leaves an even pc, which
the enforcer keeps. -/
theorem evenPcStaysEven : Obligations.EvenPcStaysEven := by
  intro s t hp h
  obtain ⟨-, w, -, ⟨-, rfl⟩ | ⟨-, i, u, -, hu, rfl⟩⟩ := step_next_cases h
  · rw [State.advancePc_pc]
    exact getLsbD_zero_add_four hp
  · rw [State.enforceX0_pc, exec_next_pc hu]
    exact State.nextPc_even hp i

end Sys2Proof.Machine

/-! PROOFS. Words in the flat memory: reads, writes and their bounds (20_memory.md R41 to R43,
R47). -/

namespace Sys2Proof.Machine

/-! ## The bytes of a word -/

/-- A word read has the four bytes from its address (R41). -/
theorem Memory.byteOf_readWord (m : Memory) (a : Nat) {i : Nat} (hi : i < 4) :
    byteOf (m.readWord a) i = m.readByte (a + i) := by
  apply BitVec.eq_of_getLsbD_eq
  intro j hj
  rw [byteOf, BitVec.getLsbD_extractLsb', Memory.readWord, getLsbD_wordOfBytes]
  interval_cases i <;>
    simp (disch := omega) only [if_pos, if_neg, if_true, decide_true, hj, Bool.true_and,
      Nat.mul_zero, Nat.zero_add, Nat.add_zero, Nat.add_sub_cancel_left]

/-- A word written has its four bytes from its address on (R42). -/
theorem Memory.readByte_writeWord_byte {m : Memory} (hm : m.wf) (a : Nat) (v : Word) {i : Nat}
    (hi : i < 4) : (m.writeWord a v).readByte (a + i) = byteOf v i := by
  obtain ⟨h0, h1, h2, h3⟩ := Memory.readByte_writeWord_same hm a v
  interval_cases i
  · exact h0
  · exact h1
  · exact h2
  · exact h3

/-- The word written is the word read (R43). -/
theorem Memory.readWord_writeWord_same {m : Memory} (hm : m.wf) (a : Nat) (v : Word) :
    (m.writeWord a v).readWord a = v := by
  obtain ⟨h0, h1, h2, h3⟩ := Memory.readByte_writeWord_same hm a v
  rw [Memory.readWord, h0, h1, h2, h3, wordOfBytes_byteOf]

/-- Bytes 1 to 3 of a word under a new top byte. -/
theorem wordOfBytes_byteOf_succ (v : Word) (b : Byte) :
    wordOfBytes (byteOf v 1) (byteOf v 2) (byteOf v 3) b = b ++ v.extractLsb' 8 24 := by
  apply BitVec.eq_of_getLsbD_eq
  intro j hj
  rw [getLsbD_wordOfBytes, BitVec.getLsbD_append]
  interval_cases j <;> simp [byteOf]

/-- A read one byte above a write sees three written bytes and the next byte from before (R47). -/
theorem Memory.readWord_succ_writeWord {m : Memory} (hm : m.wf) (a : Nat) (v : Word) :
    (m.writeWord a v).readWord (a + 1) = m.readByte (a + 4) ++ v.extractLsb' 8 24 := by
  obtain ⟨-, h1, h2, h3⟩ := Memory.readByte_writeWord_same hm a v
  have h4 : (m.writeWord a v).readByte (a + 4) = m.readByte (a + 4) :=
    Memory.readByte_writeWord_other m v (by omega)
  rw [Memory.readWord, h1, h2, h3, h4, wordOfBytes_byteOf_succ]

/-! ## The bounds contract -/

theorem inMemory_iff_inBounds (s : State) (a : Word) : InMemory s a ↔ inBounds s.cfg a = true :=
  (inBounds_iff s.cfg a).symm

theorem memRead_of_inMemory {s : State} {a : Word} (h : InMemory s a) :
    memRead s a = .ok (s.mem.readWord a.toNat) :=
  if_pos ((inMemory_iff_inBounds s a).1 h)

/-- The bounds are the parameters', so another memory is read within the same ones. -/
theorem memRead_replacedMem {s : State} {a : Word} (h : InMemory s a) (m : Memory) :
    memRead { s with mem := m } a = .ok (m.readWord a.toNat) :=
  memRead_of_inMemory (s := { s with mem := m }) h

theorem memRead_of_not_inMemory {s : State} {a : Word} (h : ¬ InMemory s a) :
    memRead s a = .error (.memoryBoundsError a) :=
  if_neg (mt (inMemory_iff_inBounds s a).2 h)

theorem memWrite_of_inMemory {s : State} {a : Word} (h : InMemory s a) (v : Word) :
    memWrite s v a = .ok { s with mem := s.mem.writeWord a.toNat v } :=
  if_pos ((inMemory_iff_inBounds s a).1 h)

theorem memWrite_of_not_inMemory {s : State} {a : Word} (h : ¬ InMemory s a) (v : Word) :
    memWrite s v a = .error (.memoryBoundsError a) :=
  if_neg (mt (inMemory_iff_inBounds s a).2 h)

/-! ## The statements -/

/-- Settles O7: the word read is built from the four bytes, inside the bounds. -/
theorem readWordIsLittleEndianAndBounded : Obligations.ReadWordIsLittleEndianAndBounded := by
  intro s a
  exact ⟨fun h => ⟨_, memRead_of_inMemory h, fun i hi => s.mem.byteOf_readWord a.toNat hi⟩,
    memRead_of_not_inMemory⟩

/-- Settles O8: the written bytes and the others are read off the word write, and the write replaces
the memory alone. -/
theorem writeWordStoresItsFourBytes : Obligations.WriteWordStoresItsFourBytes := by
  intro s v a hm
  refine ⟨fun h => ⟨_, memWrite_of_inMemory h v, fun i hi => ?_, fun b hb => ?_,
    rfl, rfl, rfl, rfl⟩, fun h => memWrite_of_not_inMemory h v⟩
  · exact Memory.readByte_writeWord_byte hm a.toNat v hi
  · exact Memory.readByte_writeWord_other s.mem v hb

/-- Settles O9: a write moves no bound, so the read is in range too. -/
theorem readWordReturnsTheWrittenWord : Obligations.ReadWordReturnsTheWrittenWord := by
  intro s v a hm h
  refine ⟨_, memWrite_of_inMemory h v, ?_⟩
  rw [memRead_replacedMem h, Memory.readWord_writeWord_same hm]

/-- Settles O10: the word read at `a + 1` is the old byte at `a + 4` above bytes 1 to 3 of `v`. -/
theorem overlappingReadSeesTheWrittenBytes : Obligations.OverlappingReadSeesTheWrittenBytes := by
  intro s v a hm h htop hwrap
  have hsucc : (a + 1).toNat = a.toNat + 1 := by bv_omega
  have h' : InMemory s (a + 1) := by
    obtain ⟨hlow, -⟩ := h
    unfold InMemory
    omega
  refine ⟨_, s.mem.readByte (a.toNat + 4) ++ v.extractLsb' 8 24, memWrite_of_inMemory h v, ?_,
    ?_, ?_⟩
  · rw [memRead_replacedMem h', hsucc, Memory.readWord_succ_writeWord hm]
  · exact BitVec.extractLsb'_append_eq_right
  · exact BitVec.extractLsb'_append_eq_left

end Sys2Proof.Machine

/-! PROOFS. The host's writes between cycles (20_memory.md R56, 70_reset_and_hazards.md R208,
R211). -/

namespace Sys2Proof.Machine

theorem hostWriteWord_of_inMemory {s : State} {a : Word} (h : InMemory s a) (v : Word) :
    hostWriteWord s v a = .next { s with mem := s.mem.writeWord a.toNat v } := by
  rw [hostWriteWord, memWrite_of_inMemory h]

/-- Everything a host write that goes on does: it is in range and replaces the memory alone. -/
theorem hostWriteWord_next_cases {s t : State} {v a : Word} (h : hostWriteWord s v a = .next t) :
    InMemory s a ∧ t = { s with mem := s.mem.writeWord a.toNat v } := by
  by_cases hin : InMemory s a
  · rw [hostWriteWord_of_inMemory hin] at h
    cases h
    exact ⟨hin, rfl⟩
  · rw [hostWriteWord, memWrite_of_not_inMemory hin] at h
    cases h

/-- Settles O12: a word write keeps the canonical form, and an in-range one keeps the region. -/
theorem hostWriteKeepsTheInvariant : Obligations.HostWriteKeepsTheInvariant := by
  intro s t v a hs h
  obtain ⟨hin, rfl⟩ := hostWriteWord_next_cases h
  exact
    { cfg_wf := hs.cfg_wf
      x0_zero := hs.x0_zero
      mem_wf := Memory.wf_writeWord hs.mem_wf a.toNat v
      mem_within := Memory.within_writeWord hs.mem_within hin v }

/-- Settles O13: the fetch reads the word at the pc, which the host's write does not move. -/
theorem hostWriteIsSeenByTheNextFetch : Obligations.HostWriteIsSeenByTheNextFetch := by
  intro s v hm h
  refine ⟨_, hostWriteWord_of_inMemory h v, ?_, rfl⟩
  rw [fetch, memRead_replacedMem h, Memory.readWord_writeWord_same hm]

end Sys2Proof.Machine

/-! PROOFS. Memory and parameters along a run of steps (20_memory.md R50, 10_state.md R34). -/

namespace Sys2Proof.Machine

/-- Settles O33: no step changes the memory or a parameter, so no run of steps does. -/
theorem noStepsChangeMemoryOrParameters : Obligations.NoStepsChangeMemoryOrParameters := by
  intro s t h
  have hkeep : t.mem = s.mem ∧ t.cfg = s.cfg := by
    refine h.keeps (P := fun u => u.mem = s.mem ∧ u.cfg = s.cfg) (fun u u' hu hs => ?_) ⟨rfl, rfl⟩
    obtain ⟨hmem, hcfg⟩ := step_keeps_mem_cfg hu
    exact ⟨hmem.trans hs.1, hcfg.trans hs.2⟩
  obtain ⟨hmem, hcfg⟩ := hkeep
  exact ⟨hmem, fun a => by rw [hmem], hcfg⟩

end Sys2Proof.Machine

/-! PROOFS. Decode against encode (30_encoding.md R72 to R77, R83). The two meet in the record of
R72: `select` inverts `Encoding.record`, and `encodeRecord` inverts `recordOf` up to ECALL's ignored
bits. -/

namespace Sys2Proof

open Laws (instrClass)

/-- The record the decoder must find for an instruction: its operands, with the funct value its
class selects it by (R72, R75). -/
def Encoding.record (e : Encoding) : Instr → Decoded
  | .lui rd imm => .lui rd imm
  | .auipc rd imm => .auipc rd imm
  | .jal rd off => .jal rd off
  | .jalr rd f3 rs1 off => .jalr rd f3 rs1 off
  | .beq rs1 rs2 off => .branch off e.f3Beq rs1 rs2
  | .bne rs1 rs2 off => .branch off e.f3Bne rs1 rs2
  | .addi rd rs1 imm => .imm rd e.f3Addi rs1 imm
  | .slti rd rs1 imm => .imm rd e.f3Slti rs1 imm
  | .sltiu rd rs1 imm => .imm rd e.f3Sltiu rs1 imm
  | .lw rd rs1 imm => .load rd e.f3Lw rs1 imm
  | .ecall => .system 0

/-- The word of a record in its class's layout; SYSTEM's bits 19:7 are written as zero (R83). -/
def encodeRecord (e : Encoding) : Decoded → Word
  | .lui rd imm => encodeU e.opcLui rd imm
  | .auipc rd imm => encodeU e.opcAuipc rd imm
  | .jal rd off => encodeJ e.opcJal rd off
  | .jalr rd f3 rs1 off => encodeI e.opcJalr rd f3 rs1 off
  | .branch off f3 rs1 rs2 => encodeB e.opcBranch f3 rs1 rs2 off
  | .imm rd f3 rs1 imm => encodeI e.opcImm rd f3 rs1 imm
  | .load rd f3 rs1 imm => encodeI e.opcLoad rd f3 rs1 imm
  | .system f12 => encodeI e.opcSystem 0 0 0 f12

/-- The class a record belongs to (R73). -/
def Decoded.cls : Decoded → OpClass
  | .lui _ _ => .lui
  | .auipc _ _ => .auipc
  | .jal _ _ => .jal
  | .jalr _ _ _ _ => .jalr
  | .branch _ _ _ _ => .branch
  | .imm _ _ _ _ => .imm
  | .load _ _ _ _ => .load
  | .system _ => .system

@[simp] theorem cls_recordOf (w : Word) (c : OpClass) : (recordOf w c).cls = c := by
  cases c <;> rfl

@[simp] theorem Encoding.cls_record (e : Encoding) (i : Instr) :
    (e.record i).cls = instrClass i := by
  cases i <;> rfl

theorem instrClass_eq_system {i : Instr} : instrClass i = .system ↔ i = .ecall := by
  cases i <;> simp [instrClass]

/-- The encoder goes through the record. -/
theorem encode_eq_encodeRecord (e : Encoding) (i : Instr) :
    encode e i = encodeRecord e (e.record i) := by
  cases i <;> rfl

theorem opcodeOf_encode (e : Encoding) (i : Instr) :
    opcodeOf (encode e i) = e.opcode (instrClass i) := by
  cases i with
  | lui rd imm => exact Laws.EncodedOpcode.lui rd imm e
  | auipc rd imm => exact Laws.EncodedOpcode.auipc rd imm e
  | jal rd off => exact Laws.EncodedOpcode.jal rd off e
  | jalr rd f3 rs1 off => exact Laws.EncodedOpcode.jalr rd f3 rs1 off e
  | beq rs1 rs2 off => exact Laws.EncodedOpcode.beq rs1 rs2 off e
  | bne rs1 rs2 off => exact Laws.EncodedOpcode.bne rs1 rs2 off e
  | addi rd rs1 imm => exact Laws.EncodedOpcode.addi rd rs1 imm e
  | slti rd rs1 imm => exact Laws.EncodedOpcode.slti rd rs1 imm e
  | sltiu rd rs1 imm => exact Laws.EncodedOpcode.sltiu rd rs1 imm e
  | lw rd rs1 imm => exact Laws.EncodedOpcode.lw rd rs1 imm e
  | ecall => exact Laws.EncodedOpcode.ecall e

/-- The fields of a record are read back from its word. -/
theorem recordOf_encodeRecord (e : Encoding) (d : Decoded) :
    recordOf (encodeRecord e d) d.cls = d := by
  cases d with
  | lui rd imm => simp [encodeRecord, Decoded.cls, recordOf, rdOf_encodeU, immUOf_encodeU]
  | auipc rd imm => simp [encodeRecord, Decoded.cls, recordOf, rdOf_encodeU, immUOf_encodeU]
  | jal rd off => simp [encodeRecord, Decoded.cls, recordOf, rdOf_encodeJ, offsetJOf_encodeJ]
  | branch off f3 rs1 rs2 =>
    simp [encodeRecord, Decoded.cls, recordOf, offsetBOf_encodeB, funct3Of_encodeB, rs1Of_encodeB,
      rs2Of_encodeB]
  | system f12 => simp [encodeRecord, Decoded.cls, recordOf, immIOf_encodeI]
  | jalr rd f3 rs1 imm | imm rd f3 rs1 imm | load rd f3 rs1 imm =>
    simp [encodeRecord, Decoded.cls, recordOf, rdOf_encodeI, funct3Of_encodeI, rs1Of_encodeI,
      immIOf_encodeI]

/-- An ECALL word from its opcode and funct12: bits 19:7 are cleared (R77, R155). -/
theorem encodeI_opcode_immI (w : Word) :
    encodeI (opcodeOf w) 0 0 0 (immIOf w) = w &&& 0xFFF0007F := by
  apply eq_of_bits; intro i hi
  rw [getLsbD_encodeI, BitVec.getLsbD_and]
  interval_cases i <;> simp [opcodeOf, immIOf]

/-- A word is rebuilt from its class's record, but for SYSTEM's bits 19:7. -/
theorem encodeRecord_recordOf {e : Encoding} {w : Word} {c : OpClass}
    (h : e.opcode c = opcodeOf w) :
    encodeRecord e (recordOf w c) = if c = .system then w &&& 0xFFF0007F else w := by
  cases c <;> simp only [Encoding.opcode] at h
  case lui | auipc => simp [recordOf, encodeRecord, h, encodeU_fields]
  case jal => simp [recordOf, encodeRecord, h, encodeJ_fields]
  case branch => simp [recordOf, encodeRecord, h, encodeB_fields]
  case jalr | load | imm => simp [recordOf, encodeRecord, h, encodeI_fields]
  case system => rw [if_pos rfl, recordOf, encodeRecord, h, encodeI_opcode_immI]

/-- The selection finds an instruction from its record, since the funct values of a class differ. -/
theorem select_record {e : Encoding} (h : e.wf = true) (i : Instr) :
    select e (e.record i) = .ok i := by
  have d := Encoding.wf_distinct h
  cases i with
  | bne rs1 rs2 off => simp [Encoding.record, select, d.bne_beq]
  | slti rd rs1 imm => simp [Encoding.record, select, d.slti_addi]
  | sltiu rd rs1 imm => simp [Encoding.record, select, d.sltiu_addi, d.sltiu_slti]
  | _ => simp [Encoding.record, select]

/-- A record from which an instruction is selected is that instruction's record. -/
theorem eq_record_of_select {e : Encoding} {d : Decoded} {i : Instr} (h : select e d = .ok i) :
    d = e.record i := by
  cases d <;> simp only [select] at h
  case branch off f3 rs1 rs2 =>
    split at h; · cases h; subst f3; rfl
    split at h; · cases h; subst f3; rfl
    cases h
  case imm rd f3 rs1 imm =>
    split at h; · cases h; subst f3; rfl
    split at h; · cases h; subst f3; rfl
    split at h; · cases h; subst f3; rfl
    cases h
  case load rd f3 rs1 imm =>
    split at h; · cases h; subst f3; rfl
    cases h
  case system f12 =>
    split at h; · cases h; subst f12; rfl
    cases h
  all_goals cases h; rfl

/-- Settles O14: the word has its class's opcode, the class's layout gives the record back, and the
selection finds the instruction in it. -/
theorem decodeOfEncodeIsTheInstruction : Obligations.DecodeOfEncodeIsTheInstruction := by
  intro e i he
  have hrecord : recordOf (encode e i) (instrClass i) = e.record i := by
    rw [encode_eq_encodeRecord, ← e.cls_record i, recordOf_encodeRecord]
  rw [decode_of_class he (opcodeOf_encode e i), hrecord, select_record he]

/-- What the encoder writes for a decoded word: the word, but for ECALL's bits 19:7 (R77). -/
theorem encode_of_decode {e : Encoding} {w : Word} {i : Instr} (h : decode e w = .ok i) :
    encode e i = if i = .ecall then w &&& 0xFFF0007F else w := by
  obtain ⟨c, hc, hs⟩ := decode_ok_class h
  have hrecord : recordOf w c = e.record i := eq_record_of_select hs
  have hcls : c = instrClass i := by rw [← cls_recordOf w c, hrecord, e.cls_record]
  rw [encode_eq_encodeRecord, ← hrecord, encodeRecord_recordOf (opcode_of_classOf hc), hcls]
  simp only [instrClass_eq_system]

/-- Settles O15: ECALL's word loses its bits 19:7, every other word is rebuilt from its record. -/
theorem encodeOfDecodeIsTheWord : Obligations.EncodeOfDecodeIsTheWord := by
  intro e w i h
  have henc := encode_of_decode h
  exact ⟨fun hi => by rwa [if_neg hi] at henc, fun hi => by rwa [if_pos hi] at henc⟩

/-- Settles O20: SYSTEM's selection tests funct12 alone, and a word that decodes to another
instruction than ECALL is the encoder's word of it. -/
theorem decodingDropsOnlyEcallsBits : Obligations.DecodingDropsOnlyEcallsBits := by
  refine ⟨fun e w he hop => ?_, fun e w w' i h h' hi => ?_⟩
  · have hdec : decode e w = select e (.system (immIOf w)) := decode_of_class he (c := .system) hop
    change _ ↔ immIOf w = 0
    rw [hdec, select]
    by_cases hf : immIOf w = 0 <;> simp [hf]
  · obtain ⟨hw, -⟩ := encodeOfDecodeIsTheWord e w i h
    obtain ⟨hw', -⟩ := encodeOfDecodeIsTheWord e w' i h'
    exact (hw hi).symm.trans (hw' hi)

end Sys2Proof

/-! PROOFS. The scattered offsets, and the words as shifted fields (30_encoding.md R62 to
R70, R83). -/

namespace Sys2Proof

open Machine

theorem or_reversed (a b c d : Nat) : a ||| b ||| c ||| d = d ||| c ||| b ||| a := by ac_rfl

/-- Settles O16: an appended word is the shifted or of its parts, and a displacement is twice the
two's-complement reading of its field. -/
theorem scatteredOffsetsFollowTheLayouts : Obligations.ScatteredOffsetsFollowTheLayouts := by
  refine ⟨fun w => ?_, fun o => ?_, fun w => ?_, fun o => ?_⟩
  · rw [offsetJOf, BitVec.toNat_append, BitVec.toNat_append, BitVec.toNat_append]
    simp only [Nat.shiftLeft_or_distrib, ← Nat.shiftLeft_add]
    exact or_reversed _ _ _ _
  · have hlow := BitVec.le_two_mul_toInt (x := o)
    have hhigh := BitVec.two_mul_toInt_lt (x := o)
    rw [displacementJ, sext_eq_toInt]
    omega
  · rw [offsetBOf, BitVec.toNat_append, BitVec.toNat_append, BitVec.toNat_append]
    simp only [Nat.shiftLeft_or_distrib, ← Nat.shiftLeft_add]
    exact or_reversed _ _ _ _
  · have hlow := BitVec.le_two_mul_toInt (x := o)
    have hhigh := BitVec.two_mul_toInt_lt (x := o)
    rw [displacementB, sext_eq_toInt]
    omega

theorem toNat_encodeU (op : Opcode) (rd : RegIdx) (imm : Imm20) :
    (encodeU op rd imm).toNat = imm.toNat <<< 12 ||| rd.toNat <<< 7 ||| op.toNat := by
  rw [encodeU]
  simp only [BitVec.toNat_append, Nat.shiftLeft_or_distrib, ← Nat.shiftLeft_add]

theorem toNat_encodeI (op : Opcode) (rd : RegIdx) (f3 : Funct3) (rs1 : RegIdx) (imm : Imm12) :
    (encodeI op rd f3 rs1 imm).toNat =
      imm.toNat <<< 20 ||| rs1.toNat <<< 15 ||| f3.toNat <<< 12 ||| rd.toNat <<< 7 |||
        op.toNat := by
  rw [encodeI]
  simp only [BitVec.toNat_append, Nat.shiftLeft_or_distrib, ← Nat.shiftLeft_add]

theorem toNat_encodeJ (op : Opcode) (rd : RegIdx) (off : Imm20) :
    (encodeJ op rd off).toNat =
      (off.toNat >>> 19 % 2) <<< 31 ||| (off.toNat % 1024) <<< 21 |||
        (off.toNat >>> 10 % 2) <<< 20 ||| (off.toNat >>> 11 % 256) <<< 12 |||
        rd.toNat <<< 7 ||| op.toNat := by
  rw [encodeJ]
  simp only [BitVec.toNat_append, BitVec.extractLsb'_toNat, Nat.shiftLeft_or_distrib,
    ← Nat.shiftLeft_add]
  simp only [Nat.shiftRight_zero, Nat.reduceAdd, Nat.reducePow]

theorem toNat_encodeB (op : Opcode) (f3 : Funct3) (rs1 rs2 : RegIdx) (off : Imm12) :
    (encodeB op f3 rs1 rs2 off).toNat =
      (off.toNat >>> 11 % 2) <<< 31 ||| (off.toNat >>> 4 % 64) <<< 25 ||| rs2.toNat <<< 20 |||
        rs1.toNat <<< 15 ||| f3.toNat <<< 12 ||| (off.toNat % 16) <<< 8 |||
        (off.toNat >>> 10 % 2) <<< 7 ||| op.toNat := by
  rw [encodeB]
  simp only [BitVec.toNat_append, BitVec.extractLsb'_toNat, Nat.shiftLeft_or_distrib,
    ← Nat.shiftLeft_add]
  simp only [Nat.shiftRight_zero, Nat.reduceAdd, Nat.reducePow]

/-- The field of an integer holds its residue (R92). -/
theorem toNat_ofInt_eq_truncate (n : Nat) (v : Int) : (BitVec.ofInt n v).toNat = truncate v n :=
  BitVec.toNat_ofInt v

/-- Bit `k` of a halved displacement is bit `k + 1` of the displacement (R68, R69). -/
theorem truncate_half (v : Int) (n : Nat) : truncate (v / 2) n = truncate v (n + 1) >>> 1 := by
  have hhalf : (v / 2) % 2 ^ n = v % 2 ^ (n + 1) / 2 := by
    rw [Int.emod_def, Int.emod_def, pow_succ', ← Int.ediv_ediv_of_nonneg (by decide), mul_assoc,
      Int.sub_mul_ediv_left _ _ (by decide)]
  have hleft := truncate_toInt (v / 2) n
  have hright := truncate_toInt v (n + 1)
  push_cast at hleft hright
  omega

/-- Settles O23: each layout is an or of shifted fields; the field of an immediate holds its
residue, and the field of a displacement holds the residue without its bit 0. -/
theorem encodedWordsFollowTheFormulas : Obligations.EncodedWordsFollowTheFormulas := by
  refine ⟨toNat_encodeU, fun op rd f3 rs1 imm _ => ?_, fun op rd disp _ => ?_,
    fun op f3 rs1 rs2 disp _ => ?_⟩
  · rw [toNat_encodeI, toNat_ofInt_eq_truncate]
  · rw [toNat_encodeJ, toNat_ofInt_eq_truncate, truncate_half]
    simp only [← Nat.shiftRight_add]
  · rw [toNat_encodeB, toNat_ofInt_eq_truncate, truncate_half]
    simp only [← Nat.shiftRight_add]

end Sys2Proof

/-! PROOFS. Words that are no instruction (30_encoding.md R66, R74, R78, R80, 20_memory.md R54), and
the words the spec writes out (R83, 95_test_vectors.md). -/

namespace Sys2Proof

open Machine

/-- A fetched word that the decoder rejects ends the step with its fatal error (R103, R171). -/
theorem Machine.FetchesWord.step_of_reject {s : State} {w : Word} {r : Reject}
    (h : FetchesWord s w) (hd : decode s.cfg.enc w = .error r) :
    step s = .fault (rejectFault r) := by
  simp only [step, cycle, h.running, h.fetched, cycleOn, if_neg h.nonzero, hd]
  rfl

/-- A zero word at the pc is skipped (R102). -/
theorem Machine.cycle_of_fetch_zero {s : State} (hr : s.terminated = false) (hf : fetch s = .ok 0) :
    cycle s = .skipped s.advancePc := by
  simp only [cycle, hr, hf, cycleOn, if_pos]
  rfl

theorem Encoding.opcodes_nodup {e : Encoding} (h : e.wf = true) : e.opcodes.Nodup := by
  simp only [Encoding.wf, Encoding.opcodesDistinct, Bool.and_eq_true, decide_eq_true_eq] at h
  obtain ⟨⟨hnodup, -⟩, -⟩ := h
  exact hnodup

/-- A duplicate-free list of opcodes leaves out all but its length of the 128 values. -/
theorem length_filter_not_mem_opcodes {l : List Opcode} (h : l.Nodup) :
    ((List.range 128).filter fun n => decide (BitVec.ofNat 7 n ∉ l)).length = 128 - l.length := by
  have hlisted : ((List.range 128).filter fun n => decide (BitVec.ofNat 7 n ∈ l)).Perm
      (l.map BitVec.toNat) := by
    refine (List.perm_ext_iff_of_nodup (List.nodup_range.filter _)
      (h.map fun _ _ => BitVec.eq_of_toNat_eq)).2 fun n => ?_
    simp only [List.mem_filter, List.mem_range, decide_eq_true_eq, List.mem_map]
    constructor
    · rintro ⟨hn, hmem⟩
      exact ⟨_, hmem, Nat.mod_eq_of_lt hn⟩
    · rintro ⟨op, hmem, rfl⟩
      exact ⟨op.isLt, by simpa using hmem⟩
  have hsplit := (List.range 128).length_eq_length_filter_add fun n => decide (BitVec.ofNat 7 n ∈ l)
  rw [hlisted.length_eq, List.length_map, List.length_range] at hsplit
  simp only [decide_not]
  omega

/-- Settles O17: no class has such an opcode, and an admissible set's eight opcodes are distinct. -/
theorem unknownOpcodesAreDecodeErrors : Obligations.UnknownOpcodesAreDecodeErrors := by
  refine ⟨fun e w h => decode_unknown h, fun s w hf h => hf.step_of_reject (decode_unknown h),
    fun e he => ?_⟩
  rw [length_filter_not_mem_opcodes (Encoding.opcodes_nodup he)]
  rfl

/-- The opcode-table decoder at 32 bits is the decoder of the word. -/
theorem decodeTableWord_toNat (w : Word) :
    decodeTableWord 32 w.toNat = (decode .rv32i w).toOption := by
  have hword : BitVec.ofNat 32 (w.toNat % 2 ^ 32) = w := by
    rw [Nat.mod_eq_of_lt w.isLt, BitVec.ofNat_toNat, BitVec.setWidth_eq]
  simp only [decodeTableWord, decodeBytes, wordOfBytes_byteOf, hword]
  cases decode .rv32i w <;> rfl

/-- Every RV32I class opcode ends in the bits `11` (R66). -/
theorem rv32i_opcodes_low_bits : ∀ op ∈ Encoding.rv32i.opcodes, op.extractLsb' 0 2 = 3 := by decide

/-- Settles O18: the three opcodes are not among the eight, and all eight end in `11`. -/
theorem lackedOpcodesAreDecodeErrors : Obligations.LackedOpcodesAreDecodeErrors := by
  intro w h
  have hlacked : opcodeOf w ∉ Encoding.rv32i.opcodes := by
    change opcodeOf w = _ ∨ opcodeOf w = _ ∨ opcodeOf w = _ ∨ _ at h
    obtain h | h | h | h := h
    · rw [h]; decide
    · rw [h]; decide
    · rw [h]; decide
    · intro hmem
      apply h
      rw [← rv32i_opcodes_low_bits _ hmem, opcodeOf,
        BitVec.extractLsb'_extractLsb'_of_le (by decide)]
  have herror := decode_unknown hlacked
  exact ⟨herror, by rw [decodeTableWord_toNat, herror]; rfl⟩

/-- Settles O21: 0 is no class's opcode, and the cycle tests for the zero word before it decodes. -/
theorem zeroOpcodeWordsAreDecodeErrors : Obligations.ZeroOpcodeWordsAreDecodeErrors := by
  refine ⟨fun e he => ?_, fun s hr hf => ⟨_, cycle_of_fetch_zero hr hf⟩, fun s w hc hf hop => ?_⟩
  · exact decode_unknown (w := 0) (Encoding.zero_not_mem he)
  · have hzero : opcodeOf w = 0 := hop
    have hunknown : opcodeOf w ∉ s.cfg.enc.opcodes := by
      rw [hzero]
      exact Encoding.zero_not_mem (Config.wf_enc hc)
    rw [hf.step_of_reject (decode_unknown hunknown), rejectFault, hzero]

/-- Settles O22: the decoder run on each of the sixteen words. -/
theorem specExampleWordsDecode : Obligations.SpecExampleWordsDecode := by
  unfold Obligations.SpecExampleWordsDecode
  decide

end Sys2Proof

/-! PROOFS. Assembler operands read back from their fields (30_encoding.md R81, R82). -/

namespace Sys2Proof

open Machine

theorem toNat_ofNat_of_regOk {r : Nat} (h : regOk r = true) : (BitVec.ofNat 5 r).toNat = r :=
  Nat.mod_eq_of_lt (of_decide_eq_true h)

theorem toNat_ofNat_of_imm20Ok {v : Nat} (h : imm20Ok v = true) : (BitVec.ofNat 20 v).toNat = v :=
  Nat.mod_eq_of_lt (of_decide_eq_true h)

theorem immediateI_ofInt {v : Int} (h : imm12Ok v = true) : immediateI (BitVec.ofInt 12 v) = v := by
  simp only [imm12Ok, Bool.and_eq_true, decide_eq_true_eq] at h
  obtain ⟨hlow, hhigh⟩ := h
  rw [immediateI, sext_eq_toInt, BitVec.toInt_ofInt_eq_self (by decide) (by omega) (by omega)]

theorem displacementJ_ofInt_half {v : Int} (h : jDispOk v = true) :
    displacementJ (BitVec.ofInt 20 (v / 2)) = v := by
  simp only [jDispOk, Bool.and_eq_true, decide_eq_true_eq] at h
  obtain ⟨⟨heven, hlow⟩, hhigh⟩ := h
  rw [displacementJ, sext_eq_toInt, BitVec.toInt_ofInt_eq_self (by decide) (by omega) (by omega)]
  omega

theorem displacementB_ofInt_half {v : Int} (h : bDispOk v = true) :
    displacementB (BitVec.ofInt 12 (v / 2)) = v := by
  simp only [bDispOk, Bool.and_eq_true, decide_eq_true_eq] at h
  obtain ⟨⟨heven, hlow⟩, hhigh⟩ := h
  rw [displacementB, sext_eq_toInt, BitVec.toInt_ofInt_eq_self (by decide) (by omega) (by omega)]
  omega

/-- Settles O24: the line's checks are the ranges in which each field reads back its operand. -/
theorem assemblerOperandsMeanTheirNumbers : Obligations.AssemblerOperandsMeanTheirNumbers := by
  refine ⟨fun a ha => ?_, fun rd rs imm disp => ⟨rfl, rfl, rfl, rfl, rfl, rfl, rfl⟩⟩
  cases a <;> simp only [Asm.wf, Bool.and_eq_true] at ha
  case lui rd imm | auipc rd imm =>
    obtain ⟨hd, hi⟩ := ha
    exact ⟨_, _, rfl, toNat_ofNat_of_regOk hd, toNat_ofNat_of_imm20Ok hi⟩
  case jal rd disp =>
    obtain ⟨hd, ho⟩ := ha
    exact ⟨_, _, rfl, toNat_ofNat_of_regOk hd, displacementJ_ofInt_half ho⟩
  case jalr rd imm rs1 | lw rd imm rs1 =>
    obtain ⟨⟨hd, hi⟩, hb⟩ := ha
    exact ⟨_, _, _, rfl, toNat_ofNat_of_regOk hd, toNat_ofNat_of_regOk hb, immediateI_ofInt hi⟩
  case beq rs1 rs2 disp | bne rs1 rs2 disp =>
    obtain ⟨⟨hb, hc⟩, ho⟩ := ha
    exact ⟨_, _, _, rfl, toNat_ofNat_of_regOk hb, toNat_ofNat_of_regOk hc,
      displacementB_ofInt_half ho⟩
  case addi rd rs1 imm | slti rd rs1 imm | sltiu rd rs1 imm =>
    obtain ⟨⟨hd, hb⟩, hi⟩ := ha
    exact ⟨_, _, _, rfl, toNat_ofNat_of_regOk hd, toNat_ofNat_of_regOk hb, immediateI_ofInt hi⟩
  case ecall | nop => rfl
  case li rd imm =>
    obtain ⟨hd, hi⟩ := ha
    exact ⟨_, _, rfl, toNat_ofNat_of_regOk hd, immediateI_ofInt hi⟩
  case mv rd rs | seqz rd rs =>
    obtain ⟨hd, hb⟩ := ha
    exact ⟨_, _, rfl, toNat_ofNat_of_regOk hd, toNat_ofNat_of_regOk hb⟩
  case j disp => exact ⟨_, rfl, displacementJ_ofInt_half ha⟩
  case beqz rs disp | bnez rs disp =>
    obtain ⟨hb, ho⟩ := ha
    exact ⟨_, _, rfl, toNat_ofNat_of_regOk hb, displacementB_ofInt_half ho⟩

end Sys2Proof

/-! PROOFS. The arithmetic units on every integer (40_arithmetic_units.md R90 to R93). `to_signed` is
the signed reading of the argument's bit vector, so its laws are those of `BitVec.toInt`. -/

namespace Sys2Proof.Machine

/-- Settles O1: the mask is `2^n - 1`, whose set bits are the low `n`. -/
theorem bitMaskPrefixMasksLowBits : Obligations.BitMaskPrefixMasksLowBits := by
  intro n _
  refine ⟨bitMaskPrefix_eq n, fun i => ?_⟩
  rw [bitMaskPrefix_eq, Nat.testBit_two_pow_sub_one]

/-- Settles O4: both forms of `truncate` on a natural number. -/
theorem truncateMasksTheLowBits : Obligations.TruncateMasksTheLowBits :=
  fun v bits => ⟨truncate_eq_and_mask v bits, truncate_natCast v bits⟩

/-! ## The and of a negative integer -/

/-- `-(m+1)` is the complement of `m`, and so is its residue within the low bits (G7). -/
theorem truncate_negSucc (m bits : Nat) :
    truncate (Int.negSucc m) bits = 2 ^ bits - (m % 2 ^ bits + 1) := by
  have hneg := Int.negSucc_emod m (b := ((2 ^ bits : Nat) : Int)) (by positivity)
  rw [← truncate_toInt, ← Int.natCast_mod] at hneg
  omega

/-- The bits of the residue of `-(m+1)` are the low bits that `m` does not have. -/
theorem truncate_negSucc_eq_ldiff (m bits : Nat) :
    truncate (Int.negSucc m) bits = Nat.ldiff (bitMaskPrefix bits) m := by
  apply Nat.eq_of_testBit_eq
  intro i
  rw [truncate_negSucc, Nat.testBit_two_pow_sub_succ (Nat.mod_lt _ (by positivity)),
    Nat.testBit_mod_two_pow, Nat.testBit_ldiff, bitMaskPrefix_eq, Nat.testBit_two_pow_sub_one]
  cases decide (i < bits) <;> rfl

/-- `truncate` is the and with the mask on every integer (R92, G7). -/
theorem truncate_eq_land_mask (v : Int) (bits : Nat) :
    (truncate v bits : Int) = Int.land v (bitMaskPrefix bits) := by
  cases v with
  | ofNat n => exact congrArg Nat.cast (truncate_eq_and_mask n bits)
  | negSucc m => exact congrArg Nat.cast (truncate_negSucc_eq_ldiff m bits)

/-- Settles O5: the residue is in range and congruent, and it is the and with the mask. -/
theorem truncateIsTheResidueOfEveryInteger : Obligations.TruncateIsTheResidueOfEveryInteger := by
  intro v bits
  refine ⟨truncate_lt v bits, ?_, truncate_eq_land_mask v bits⟩
  rw [truncate_toInt]
  exact Int.dvd_self_sub_emod

/-! ## `to_signed` as a signed reading -/

theorem truncate_truncate (v : Int) (bits : Nat) :
    truncate (truncate v bits) bits = truncate v bits := by
  rw [truncate_natCast, Nat.mod_eq_of_lt (truncate_lt v bits)]

/-- `to_signed` sees of its argument the residue alone (D17). -/
theorem toSigned_truncate (v : Int) (bits : Nat) :
    toSigned (truncate v bits) bits = toSigned v bits := by
  rw [toSigned, toSigned, truncate_truncate]

/-- `to_signed` of an integer is the signed reading of its field (R91). -/
theorem toSigned_eq_toInt (v : Int) (bits : Nat) :
    toSigned v bits = (BitVec.ofInt bits v).toInt := by
  rw [← sext_eq_toInt, sext, toNat_ofInt_eq_truncate, toSigned_truncate]

/-- The test of R91, on the field's high bit. -/
theorem toSigned_eq_ite_testBit (v : Int) (bits : Nat) :
    toSigned v bits =
      if (truncate v bits).testBit (bits - 1) then (truncate v bits : Int) - (2 ^ bits : Nat)
      else truncate v bits := by
  rw [toSigned_eq_toInt, BitVec.toInt_eq_msb_cond, BitVec.msb_eq_getLsbD_last,
    ← BitVec.testBit_toNat, toNat_ofInt_eq_truncate]

theorem toSigned_range (v : Int) (bits : Nat) :
    -((2 ^ (bits - 1) : Nat) : Int) ≤ toSigned v bits ∧
      toSigned v bits < (2 ^ (bits - 1) : Nat) := by
  rw [toSigned_eq_toInt]
  push_cast
  exact ⟨BitVec.le_toInt _, BitVec.toInt_lt⟩

theorem toSigned_sub_dvd (v : Int) (bits : Nat) : ((2 ^ bits : Nat) : Int) ∣ toSigned v bits - v := by
  rw [toSigned_eq_toInt, BitVec.toInt_ofInt]
  exact Int.dvd_bmod_sub_self

/-- The field of a signed reading is the field read (R93). -/
theorem truncate_toSigned (v : Int) (bits : Nat) :
    truncate (toSigned v bits) bits = truncate v bits := by
  rw [toSigned_eq_toInt, ← toNat_ofInt_eq_truncate, BitVec.ofInt_toInt, toNat_ofInt_eq_truncate]

/-- Wrapping a signed reading to a word sign-extends the field (R93). -/
theorem trunc32_toSigned (v : Int) (bits : Nat) :
    trunc32 (toSigned v bits) = (BitVec.ofInt bits v).signExtend 32 := by
  rw [← trunc32_sext, sext_eq_toInt, toSigned_eq_toInt]

/-- Bits of a sign-extended field: its own below the top, and copies of its high bit above. -/
theorem getLsbD_trunc32_toSigned (v : Int) {n i : Nat} (hi : i < 32) :
    (trunc32 (toSigned v n)).getLsbD i = (truncate v n).testBit (min i (n - 1)) := by
  rw [trunc32_toSigned, BitVec.getLsbD_signExtend, BitVec.msb_eq_getLsbD_last, decide_eq_true hi,
    Bool.true_and, ← toNat_ofInt_eq_truncate, BitVec.testBit_toNat]
  split
  · rw [min_eq_left (by omega)]
  · rw [min_eq_right (by omega)]

/-- Settles O6: `to_signed` sees the residue alone. -/
theorem toSignedOfTruncateAgrees : Obligations.ToSignedOfTruncateAgrees :=
  fun n => toSigned_truncate n 32

/-- Settles O2: below `2^bits` the residue is the value, and the test is on its high bit. -/
theorem toSignedReadsTwosComplement : Obligations.ToSignedReadsTwosComplement := by
  intro v bits _ _ hv
  have hcases := toSigned_eq_ite_testBit v bits
  rw [truncate_natCast, Nat.mod_eq_of_lt hv] at hcases
  refine ⟨fun hset => ?_, fun hclear => ?_, toSigned_range v bits⟩
  · rw [hcases, if_pos hset]
  · rw [hcases, if_neg (by simp [hclear])]

/-- Settles O3: the congruence and the range of a signed reading, and the companion laws. -/
theorem toSignedReducesItsArgumentFirst : Obligations.ToSignedReducesItsArgumentFirst := by
  refine ⟨fun v bits _ _ => ⟨toSigned_sub_dvd v bits, toSigned_range v bits⟩,
    fun v => truncate_toSigned v 32, fun p => ?_, fun v n i _ _ hi => getLsbD_trunc32_toSigned v hi⟩
  exact (dvd_sub_comm).1 (toSigned_sub_dvd (unsignedOf p) 32)

end Sys2Proof.Machine

/-! PROOFS. The whole cycle, one rule per outcome of fetch, decode and execute (41_cycle.md R101 to
R110). -/

namespace Sys2Proof.Machine

/-! ## Rules of the cycle -/

/-- After the end of the run there is no step (R109, D16). -/
theorem step_of_terminated {s : State} (h : s.terminated = true) :
    step s = .refused .runTerminated := by
  simp only [step, cycle, h, if_true, CycleResult.outcome]

/-- A running state goes on or stops: the end of the run is the only cause of a refusal (R109). -/
theorem step_cases_of_running {s : State} (hr : s.terminated = false) :
    (∃ t, step s = .next t) ∨ ∃ e, step s = .fault e := by
  cases h : step s with
  | next t => exact .inl ⟨t, rfl⟩
  | fault e => exact .inr ⟨e, rfl⟩
  | refused r =>
    obtain ⟨hended, -⟩ := step_refused_cases h
    exact absurd (hr.symm.trans hended) nofun

/-- A fetch that fails ends the step with its error (R101). -/
theorem step_of_fetch_error {s : State} {e : Fault} (hr : s.terminated = false)
    (hf : fetch s = .error e) : step s = .fault e := by
  simp only [step, cycle, hr, hf]
  rfl

theorem step_of_fetch_zero {s : State} (hr : s.terminated = false) (hf : fetch s = .ok 0) :
    step s = .next s.advancePc := by
  rw [step, cycle_of_fetch_zero hr hf, CycleResult.outcome]

theorem State.advancePc_eq_setPc (s : State) : s.advancePc = s.setPc (s.pc + 4) := by
  rw [State.advancePc, advance_eq]

/-- The advance of a skipped word moves the pc alone (R102, R106). -/
theorem State.advancePc_writesPcOnly (s : State) : WritesPcOnly s s.advancePc (s.pc + 4) where
  regs := s.advancePc_readReg
  pc := s.advancePc_pc
  rest := .intro rfl rfl rfl

/-! ## The self jump (R110, R120) -/

/-- The enforcer changes nothing where `x0` holds 0 (R107). -/
theorem State.enforceX0_eq_self {s : State} (h0 : s.readReg 0 = 0) : s.enforceX0 = s := by
  refine State.ext_reads (fun r => ?_) rfl rfl rfl rfl
  rw [State.readReg_enforceX0]
  split
  · next hr => rw [hr, h0]
  · rfl

/-- A jump by 0 lands on itself, in every link mode. -/
theorem State.jumpTarget_zero (s : State) : s.jumpTarget 0 = s.pc := by
  simp [State.jumpTarget_eq]

/-- `jal x0, 0` jumps to itself and its link is discarded (R120, R21). -/
theorem exec_jal_zero_zero (s : State) : exec (.jal 0 0) s = .next s := by
  rw [exec, execJal, State.jumpTarget_zero, State.writeReg_zero]
  rfl

/-- The cycle of a fetched `jal x0, 0` retires in the state it began in. -/
theorem FetchesWord.cycle_self_jump {s : State} {w : Word} (hf : FetchesWord s w)
    (hd : decode s.cfg.enc w = .ok (.jal 0 0)) (h0 : s.readReg 0 = 0) : cycle s = .retired s := by
  rw [hf.cycle_eq hd, executeAndEnforce, exec_jal_zero_zero]
  exact congrArg CycleResult.retired (State.enforceX0_eq_self h0)

/-- A state that steps to itself is never left: the driver's loop runs on in it. -/
theorem drive_of_step_self {s : State} (h : step s = .next s) (n : Nat) :
    drive n s = .running s := by
  induction n with
  | zero => exact drive_zero_of_running (running_of_step_next h)
  | succ n ih => rw [drive_of_step_next n h, ih]

/-! ## The statements -/

/-- Settles O30: the two rules for an ended and for a running state. -/
theorem noStepAfterTheRunEnded : Obligations.NoStepAfterTheRunEnded :=
  fun _ => ⟨step_of_terminated, step_cases_of_running⟩

/-- Settles O56: the cycle of the self jump retires in its own state, so the loop stays there. -/
theorem selfJumpRunsForEver : Obligations.SelfJumpRunsForEver := by
  intro n s w hf hd h0
  have hc : cycle s = .retired s := hf.cycle_self_jump hd h0
  have hstep : step s = .next s := by rw [step, hc, CycleResult.outcome]
  exact ⟨hc, drive_of_step_self hstep n⟩

/-- Settles O25: one rule of the cycle per clause, in the order of R105. -/
theorem stepRunsTheDecodedInstruction : Obligations.StepRunsTheDecodedInstruction := by
  intro s hr
  refine ⟨fun e hf => step_of_fetch_error hr hf, fun hf => ?_,
    fun w r hf hw hd => FetchesWord.step_of_reject ⟨hr, hf, hw⟩ hd,
    fun w i t hf hw hd ht => ?_, fun w i e hf hw hd he => ?_⟩
  · rw [step_of_fetch_zero hr hf, State.advancePc_eq_setPc]
  · rw [step_of_decoded hr hf hw hd, executeAndEnforce, ht, CycleResult.outcome]
  · rw [step_of_decoded hr hf hw hd, executeAndEnforce, he, CycleResult.outcome]

/-- Settles O26: the fetch is the memory's word read at the pc, in bounds or not. -/
theorem fetchReadsTheWordAtThePc : Obligations.FetchReadsTheWordAtThePc := by
  intro s
  refine ⟨fun hin => ⟨_, memRead_of_inMemory hin, fun i hi => ?_⟩, fun hout hr => ?_⟩
  · exact s.mem.byteOf_readWord s.pc.toNat hi
  · exact step_of_fetch_error hr (memRead_of_not_inMemory hout)

/-- Settles O27: the cycle skips the zero word by the pc advance, which moves the pc alone. -/
theorem zeroWordIsSkipped : Obligations.ZeroWordIsSkipped := fun s hr hf =>
  ⟨s.advancePc, cycle_of_fetch_zero hr hf, step_of_fetch_zero hr hf, s.advancePc_writesPcOnly⟩

end Sys2Proof.Machine

/-! PROOFS. The upper-immediate instructions: the value each one writes (42_upper_immediate.md R115,
R116). -/

namespace Sys2Proof.Machine

/-- LUI writes the immediate followed by twelve zero bits and advances (R115). -/
theorem exec_lui (rd : RegIdx) (imm : Imm20) (s : State) :
    exec (.lui rd imm) s = writeAndAdvance s rd (imm ++ (0 : BitVec 12)) := by
  rw [exec, execLui, trunc32_upperImmediate]

/-- AUIPC adds that value to the pc of this instruction, modulo `2^32`, and advances (R116). -/
theorem exec_auipc (rd : RegIdx) (imm : Imm20) (s : State) :
    exec (.auipc rd imm) s = writeAndAdvance s rd (s.pc + (imm ++ (0 : BitVec 12))) := by
  rw [exec, execAuipc, auipc_value_eq]

/-- Settles O40: the LUI opcode names its class, and LUI ends in a register write and the advance. -/
theorem luiLoadsTheUpperImmediate : Obligations.LuiLoadsTheUpperImmediate := by
  refine ⟨fun e w he hop => decode_of_class he (c := .lui) hop, fun rd imm s => ?_⟩
  rw [exec_lui]
  exact writeAndAdvance_next s rd _

/-- Settles O41: the AUIPC opcode names its class, and AUIPC ends in a register write, of a sum with
the pc before the advance, and the advance. -/
theorem auipcAddsTheUpperImmediateToThePc : Obligations.AuipcAddsTheUpperImmediateToThePc := by
  refine ⟨fun e w he hop => decode_of_class he (c := .auipc) hop, fun rd imm s => ?_⟩
  rw [exec_auipc]
  exact writeAndAdvance_next s rd _

end Sys2Proof.Machine

/-! PROOFS. The jumps: the next state each mode answers, or its error (43_jumps.md R120 to R122). -/

namespace Sys2Proof.Machine

theorem jalLink_literal (oldPc target : Word) : jalLink .literal oldPc target = target + 4 :=
  linkAfter_eq target

theorem jalLink_standard (oldPc target : Word) : jalLink .standard oldPc target = oldPc + 4 :=
  linkAfter_eq oldPc

/-- JAL writes its target to the pc and the mode's link to `x[rd]`, in every link mode (R120). -/
theorem exec_jal_next (rd : RegIdx) (offset : Imm20) (s : State) :
    ∃ t, exec (.jal rd offset) s = .next t ∧
      WritesRegAndPc s t rd (jalLink s.cfg.jalLinkMode s.pc (s.jumpTarget offset))
        (s.jumpTarget offset) :=
  ⟨_, rfl, jump_writes ..⟩

/-- JALR in unsupported mode reports its opcode, whatever its operands (R121, R172). -/
theorem exec_jalr_unsupported {s : State} (h : s.cfg.jalrMode = .unsupported) (rd : RegIdx)
    (f3 : Funct3) (rs1 : RegIdx) (offset : Imm12) :
    exec (.jalr rd f3 rs1 offset) s = .fault (.executeError .jalr s.cfg.enc.opcJalr.toNat) := by
  simp only [exec, execJalr, h, raise]

/-- JALR in standard mode jumps to the register sum with bit 0 cleared, the register read before
the link is written (R122). -/
theorem exec_jalr_standard {s : State} (h : s.cfg.jalrMode = .standard) (rd : RegIdx)
    (f3 : Funct3) (rs1 : RegIdx) (offset : Imm12) :
    exec (.jalr rd f3 rs1 offset) s =
      .next ((s.setPc ((s.readReg rs1 + offset.signExtend 32) &&& 0xFFFFFFFE)).writeReg rd
        (s.pc + 4)) := by
  simp only [exec, execJalr, h, linkAfter_eq, clearBit0, State.basePlusImm_eq]

/-- A word of the JALR opcode is JALR of its fields; funct3 selects nothing (R75, D12). -/
theorem decode_jalr {e : Encoding} (he : e.wf = true) {w : Word}
    (hop : w.extractLsb' 0 7 = e.opcJalr) :
    decode e w = .ok (.jalr (rdOf w) (funct3Of w) (rs1Of w) (immIOf w)) :=
  decode_of_class he (c := .jalr) hop

/-- An instruction that stops ends the step with its error (R175). -/
theorem FetchesWord.step_of_exec_fault {s : State} {w : Word} {i : Instr} {e : Fault}
    (h : FetchesWord s w) (hd : decode s.cfg.enc w = .ok i) (he : exec i s = .fault e) :
    step s = .fault e := by
  rw [step, h.cycle_eq hd, executeAndEnforce, he, CycleResult.outcome]

/-- Settles O42: the JAL opcode names its class, and each link mode fixes the link JAL writes. -/
theorem jalJumpsAndLinks : Obligations.JalJumpsAndLinks := by
  refine ⟨fun e w he hop => decode_of_class he (c := .jal) hop, fun rd offset s => ?_⟩
  obtain ⟨t, ht, hw⟩ := exec_jal_next rd offset s
  rw [State.jumpTarget_eq] at hw
  refine ⟨t, ht, fun hm => ?_, fun hm => ?_⟩
  · rwa [hm, jalLink_literal] at hw
  · rwa [hm, jalLink_standard] at hw

/-- Settles O43: the word decodes to JALR, which stops, and the step ends with its error. -/
theorem jalrUnsupportedIsAnExecuteError : Obligations.JalrUnsupportedIsAnExecuteError := by
  refine ⟨fun s w hc hf hop hm => ?_, fun rd f3 rs1 offset s hm =>
    exec_jalr_unsupported hm rd f3 rs1 offset⟩
  exact hf.step_of_exec_fault (decode_jalr (Config.wf_enc hc) hop)
    (exec_jalr_unsupported hm _ _ _ _)

/-- Settles O44: the JALR opcode names its class, and JALR is a pc write and a link write. -/
theorem jalrStandardJumpsToTheRegister : Obligations.JalrStandardJumpsToTheRegister :=
  ⟨fun _ _ he hop => decode_jalr he hop, fun rd f3 rs1 offset _ hm =>
    ⟨_, exec_jalr_standard hm rd f3 rs1 offset, jump_writes ..⟩⟩

end Sys2Proof.Machine

/-! PROOFS. The branches: the two outcomes of each (44_branches.md R130, R131). -/

namespace Sys2Proof

open Laws (instrClass)

/-- A word with an instruction's opcode and record decodes to that instruction (R72, R75). -/
theorem decode_of_record {e : Encoding} (he : e.wf = true) {w : Word} {i : Instr}
    (hop : opcodeOf w = e.opcode (instrClass i)) (hrecord : recordOf w (instrClass i) = e.record i) :
    decode e w = .ok i := by
  rw [decode_of_class he hop, hrecord, select_record he]

/-- The record of a BRANCH word, its funct3 known. -/
theorem recordOf_branch {w : Word} {f3 : Funct3} (hf : funct3Of w = f3) :
    recordOf w .branch = .branch (offsetBOf w) f3 (rs1Of w) (rs2Of w) := by
  rw [recordOf, hf]

end Sys2Proof

namespace Sys2Proof.Machine

/-- A branch on a condition goes on in both cases, and only the pc moves: to the target where the
condition holds, by the advance where it fails. -/
theorem branchTo_decide (s : State) (taken : Prop) [Decidable taken] (offset : Imm12) :
    ∃ t, branchTo s (decide taken) offset = .next t ∧
      (taken → WritesPcOnly s t (s.pc + offset.signExtend 32 * 2)) ∧
      (¬ taken → WritesPcOnly s t (s.pc + 4)) := by
  obtain ⟨t, ht, hw⟩ := branchTo_next s (decide taken) offset
  refine ⟨t, ht, fun h => ?_, fun h => ?_⟩
  · rwa [if_pos (decide_eq_true h)] at hw
  · rwa [if_neg (by simpa using h)] at hw

/-- BEQ branches where the two patterns are equal (R130). -/
theorem exec_beq (rs1 rs2 : RegIdx) (offset : Imm12) (s : State) :
    exec (.beq rs1 rs2 offset) s = branchTo s (decide (s.readReg rs1 = s.readReg rs2)) offset := rfl

/-- BNE branches where they differ (R131). -/
theorem exec_bne (rs1 rs2 : RegIdx) (offset : Imm12) (s : State) :
    exec (.bne rs1 rs2 offset) s = branchTo s (decide (s.readReg rs1 ≠ s.readReg rs2)) offset := by
  rw [exec, execBne, equalPatterns, decide_not]

/-- Settles O45: the word has BEQ's record, and BEQ is the branch on equal patterns. -/
theorem beqBranchesOnEqualPatterns : Obligations.BeqBranchesOnEqualPatterns := by
  refine ⟨fun e w he hop hf => decode_of_record he hop (recordOf_branch hf),
    fun rs1 rs2 offset s => ?_⟩
  rw [exec_beq]
  exact branchTo_decide s _ offset

/-- Settles O46: the word has BNE's record, and BNE is the branch on different patterns. -/
theorem bneBranchesOnDifferentPatterns : Obligations.BneBranchesOnDifferentPatterns := by
  refine ⟨fun e w he hop hf => decode_of_record he hop (recordOf_branch hf),
    fun rs1 rs2 offset s => ?_⟩
  obtain ⟨t, ht, htaken, hnot⟩ := branchTo_decide s (s.readReg rs1 ≠ s.readReg rs2) offset
  exact ⟨t, (exec_bne rs1 rs2 offset s).trans ht, htaken, fun heq => hnot (not_not_intro heq)⟩

end Sys2Proof.Machine

/-! PROOFS. Funct values a class does not implement (44_branches.md R132, 45_op_imm.md R143,
46_load.md R151, 47_system.md R159). -/

namespace Sys2Proof

/-- BRANCH implements BEQ and BNE alone (R132). -/
theorem select_branch_unimplemented {e : Encoding} {f3 : Funct3} (hbeq : f3 ≠ e.f3Beq)
    (hbne : f3 ≠ e.f3Bne) (off : Imm12) (rs1 rs2 : RegIdx) :
    select e (.branch off f3 rs1 rs2) = .error (.unimplementedFunct .branch f3.toNat) := by
  rw [select, if_neg hbeq, if_neg hbne]

/-- IMM implements ADDI, SLTI and SLTIU alone (R143). -/
theorem select_imm_unimplemented {e : Encoding} {f3 : Funct3} (haddi : f3 ≠ e.f3Addi)
    (hslti : f3 ≠ e.f3Slti) (hsltiu : f3 ≠ e.f3Sltiu) (rd rs1 : RegIdx) (imm : Imm12) :
    select e (.imm rd f3 rs1 imm) = .error (.unimplementedFunct .imm f3.toNat) := by
  rw [select, if_neg haddi, if_neg hslti, if_neg hsltiu]

/-- LOAD implements LW alone (R151). -/
theorem select_load_unimplemented {e : Encoding} {f3 : Funct3} (hlw : f3 ≠ e.f3Lw)
    (rd rs1 : RegIdx) (imm : Imm12) :
    select e (.load rd f3 rs1 imm) = .error (.unimplementedFunct .load f3.toNat) := by
  rw [select, if_neg hlw]

/-- SYSTEM implements ECALL alone (R159). -/
theorem select_system_unimplemented (e : Encoding) {f12 : Imm12} (hecall : f12 ≠ 0) :
    select e (.system f12) = .error (.unimplementedFunct .system f12.toNat) := by
  rw [select, if_neg hecall]

end Sys2Proof

namespace Sys2Proof.Machine

/-- A word of a class whose selection finds no instruction ends the step with that class's execute
error (R172, D13). -/
theorem FetchesWord.step_of_unimplementedFunct {s : State} {w : Word} {c : OpClass} {v : Nat}
    (h : FetchesWord s w) (hc : s.cfg.wf = true) (hop : opcodeOf w = s.cfg.enc.opcode c)
    (hsel : select s.cfg.enc (recordOf w c) = .error (.unimplementedFunct c v)) :
    step s = .fault (.executeError c v) :=
  h.step_of_reject ((decode_of_class (Config.wf_enc hc) hop).trans hsel)

/-- Settles O19: in each of the four classes the selection refuses every other funct value. -/
theorem unimplementedFunctsAreExecuteErrors : Obligations.UnimplementedFunctsAreExecuteErrors := by
  refine fun s w hc hf => ⟨fun hop hbeq hbne => ?branch, fun hop haddi hslti hsltiu => ?imm,
    fun hop hlw => ?load, fun hop hecall => ?system⟩
  case branch =>
    exact hf.step_of_unimplementedFunct hc hop (select_branch_unimplemented hbeq hbne ..)
  case imm =>
    exact hf.step_of_unimplementedFunct hc hop (select_imm_unimplemented haddi hslti hsltiu ..)
  case load => exact hf.step_of_unimplementedFunct hc hop (select_load_unimplemented hlw ..)
  case system => exact hf.step_of_unimplementedFunct hc hop (select_system_unimplemented _ hecall)

end Sys2Proof.Machine

/-! PROOFS. The register-immediate instructions: the value each one writes (45_op_imm.md R140 to
R142). -/

namespace Sys2Proof

/-- The record of an IMM word, its funct3 known. -/
theorem recordOf_imm {w : Word} {f3 : Funct3} (hf : funct3Of w = f3) :
    recordOf w .imm = .imm (rdOf w) f3 (rs1Of w) (immIOf w) := by
  rw [recordOf, hf]

end Sys2Proof

namespace Sys2Proof.Machine

theorem boolWord_decide (p : Prop) [Decidable p] : boolWord (decide p) = if p then 1 else 0 := by
  simp only [boolWord, decide_eq_true_eq]

/-- ADDI writes the sum with the sign-extended immediate, modulo `2^32`, and advances (R140). -/
theorem exec_addi (rd rs1 : RegIdx) (imm : Imm12) (s : State) :
    exec (.addi rd rs1 imm) s = writeAndAdvance s rd (s.readReg rs1 + imm.signExtend 32) := by
  rw [exec, execAddi, State.basePlusImm_eq]

/-- SLTI writes whether the signed reading is below the immediate's, and advances; widening the
immediate keeps its signed reading (R141). -/
theorem exec_slti (rd rs1 : RegIdx) (imm : Imm12) (s : State) :
    exec (.slti rd rs1 imm) s =
      writeAndAdvance s rd (if (s.readReg rs1).toInt < imm.toInt then 1 else 0) := by
  rw [exec, execSlti, lessSigned_eq_slt, BitVec.slt_eq_decide,
    BitVec.toInt_signExtend_of_le (by decide), boolWord_decide]

/-- SLTIU writes whether the unsigned reading is below that of the sign-extended immediate, and
advances (R142). -/
theorem exec_sltiu (rd rs1 : RegIdx) (imm : Imm12) (s : State) :
    exec (.sltiu rd rs1 imm) s = writeAndAdvance s rd
      (if (s.readReg rs1).toNat < (imm.signExtend 32 : Word).toNat then 1 else 0) := by
  rw [exec, execSltiu, lessUnsigned_eq_ult, BitVec.ult_eq_decide, boolWord_decide]

/-- Settles O47: the word has ADDI's record, and ADDI ends in a register write of the sum and the
advance. -/
theorem addiAddsTheImmediate : Obligations.AddiAddsTheImmediate := by
  refine ⟨fun e w he hop hf => decode_of_record he hop (recordOf_imm hf), fun rd rs1 imm s => ?_⟩
  rw [exec_addi]
  exact writeAndAdvance_next s rd _

/-- Settles O48: the word has SLTI's record, and SLTI ends in a register write of the signed
comparison and the advance. -/
theorem sltiComparesSigned : Obligations.SltiComparesSigned := by
  refine ⟨fun e w he hop hf => decode_of_record he hop (recordOf_imm hf), fun rd rs1 imm s => ?_⟩
  rw [exec_slti]
  exact writeAndAdvance_next s rd _

/-- Settles O49: the word has SLTIU's record, and SLTIU ends in a register write of the unsigned
comparison and the advance. -/
theorem sltiuComparesUnsigned : Obligations.SltiuComparesUnsigned := by
  refine ⟨fun e w he hop hf => decode_of_record he hop (recordOf_imm hf), fun rd rs1 imm s => ?_⟩
  rw [exec_sltiu]
  exact writeAndAdvance_next s rd _

end Sys2Proof.Machine

/-! PROOFS. The load: its word or its bounds error (46_load.md R150). -/

namespace Sys2Proof

/-- The record of a LOAD word, its funct3 known. -/
theorem recordOf_load {w : Word} {f3 : Funct3} (hf : funct3Of w = f3) :
    recordOf w .load = .load (rdOf w) f3 (rs1Of w) (immIOf w) := by
  rw [recordOf, hf]

end Sys2Proof

namespace Sys2Proof.Machine

/-- LW writes the word at the wrapped address, at any alignment, and advances (R150). -/
theorem exec_lw_of_inMemory {s : State} {rs1 : RegIdx} {imm : Imm12}
    (h : InMemory s (s.readReg rs1 + imm.signExtend 32)) (rd : RegIdx) :
    exec (.lw rd rs1 imm) s =
      writeAndAdvance s rd (s.mem.readWord (s.readReg rs1 + imm.signExtend 32).toNat) := by
  rw [exec, execLw, State.basePlusImm_eq, memRead_of_inMemory h]

/-- The read comes before any write, so the bounds error does not depend on `rd` (R150, R173). -/
theorem exec_lw_of_not_inMemory {s : State} {rs1 : RegIdx} {imm : Imm12}
    (h : ¬ InMemory s (s.readReg rs1 + imm.signExtend 32)) (rd : RegIdx) :
    exec (.lw rd rs1 imm) s =
      .fault (.memoryBoundsError (s.readReg rs1 + imm.signExtend 32)) := by
  simp only [exec, execLw, State.basePlusImm_eq, memRead_of_not_inMemory h, raise]

/-- Settles O50: the word has LW's record; inside the bounds LW ends in a register write of the word
read and the advance, and outside them in the read's error. -/
theorem lwLoadsTheWord : Obligations.LwLoadsTheWord := by
  refine ⟨fun e w he hop hf => decode_of_record he hop (recordOf_load hf),
    fun rd rs1 imm s => ⟨fun hin => ?_, fun hout => exec_lw_of_not_inMemory hout rd⟩⟩
  obtain ⟨t, ht, hw⟩ := writeAndAdvance_next s rd
    (s.mem.readWord (s.readReg rs1 + imm.signExtend 32).toNat)
  exact ⟨t, _, (exec_lw_of_inMemory hin rd).trans ht, hw, fun i hi => s.mem.byteOf_readWord _ hi⟩

end Sys2Proof.Machine

/-! PROOFS. ECALL and its hook: the three answers, the reference hook, hooks as tables (47_system.md
R155 to R158). -/

namespace Sys2Proof

/-- The record of a SYSTEM word, its funct12 known. -/
theorem recordOf_system {w : Word} {f12 : Imm12} (hf : immIOf w = f12) :
    recordOf w .system = .system f12 := by
  rw [recordOf, hf]

/-- The six words as bounded numbers. -/
def SyscallArgs.toFins (a : SyscallArgs) :
    Fin (2 ^ 32) × Fin (2 ^ 32) × Fin (2 ^ 32) × Fin (2 ^ 32) × Fin (2 ^ 32) × Fin (2 ^ 32) :=
  (a.a0.toFin, a.a1.toFin, a.a2.toFin, a.a3.toFin, a.a4.toFin, a.a5.toFin)

theorem SyscallArgs.toFins_injective : Function.Injective SyscallArgs.toFins := by
  rintro ⟨⟩ ⟨⟩ h
  simpa only [SyscallArgs.toFins, Prod.mk.injEq, BitVec.toFin_inj, SyscallArgs.mk.injEq] using h

/-- There are finitely many tuples of six words, so one list has them all. -/
theorem SyscallArgs.exists_complete_list : ∃ l : List SyscallArgs, ∀ args, args ∈ l := by
  have hfinite : Finite SyscallArgs := Finite.of_injective _ SyscallArgs.toFins_injective
  obtain ⟨l, -, hl⟩ := Finite.exists_univ_list SyscallArgs
  exact ⟨l, hl⟩

end Sys2Proof

namespace Sys2Proof.Machine

/-! ## The hook's answers -/

/-- An ECALL whose hook answers `Continue` advances (R155 (a)). -/
theorem exec_ecall_of_continues {s : State}
    (h : hookAnswer s.cfg.hook s.syscallArgs = .continues) :
    exec .ecall s = .next s.advancePc := by
  simp only [exec, execEcall, h]

/-- An ECALL whose hook answers `Fail` stops with the hook's reason (R155 (c), R174). -/
theorem exec_ecall_of_fail {s : State} {reason : FailReason}
    (h : hookAnswer s.cfg.hook s.syscallArgs = .fail reason) :
    exec .ecall s = .fault (failFault reason) := by
  simp only [exec, execEcall, h, raise]

/-- Settles O51: the word has ECALL's record, and each answer of the hook has its rule. -/
theorem ecallActsOnTheHooksAnswer : Obligations.EcallActsOnTheHooksAnswer := by
  refine ⟨fun e w he hop hf => decode_of_record he hop (recordOf_system hf), ?_⟩
  rintro s _ rfl
  refine ⟨fun h => ?continues, fun h => ?terminate, fun reason h => exec_ecall_of_fail h⟩
  case continues => exact ⟨_, exec_ecall_of_continues h, s.advancePc_writesPcOnly⟩
  case terminate =>
    exact ⟨_, exec_ecall_of_terminate h, rfl, s.setTerminated.advancePc_pc, fun r => rfl, rfl,
      fun a => rfl, rfl⟩

/-! ## The reference hook (R157) -/

theorem referenceHook_of_one {args : SyscallArgs} (h : args.a0 = 1) :
    referenceHook args = .terminate :=
  if_pos h

theorem referenceHook_of_ne_one {args : SyscallArgs} (h : args.a0 ≠ 1) :
    referenceHook args = .fail (.unknownSystemCall args.a0) :=
  if_neg h

/-- Settles O52: the reference hook's two answers, under the rules of ECALL for them. -/
theorem referenceHookTerminatesOnlyOnCallCodeOne :
    Obligations.ReferenceHookTerminatesOnlyOnCallCodeOne := by
  intro s hs
  have hanswer : hookAnswer s.cfg.hook s.syscallArgs = referenceHook s.syscallArgs := by
    rw [hs, hookAnswer]
  refine ⟨fun h => ?one, fun h => ?other⟩
  case one =>
    exact ⟨_, exec_ecall_of_terminate (hanswer.trans (referenceHook_of_one h)), rfl,
      s.setTerminated.advancePc_pc, rfl, rfl⟩
  case other => exact exec_ecall_of_fail (hanswer.trans (referenceHook_of_ne_one h))

/-! ## A hook as a table (R156, log 11) -/

/-- A table with one row for each listed tuple answers a listed tuple by that row. -/
theorem tableAnswer_map {l : List SyscallArgs} {args : SyscallArgs} (h : args ∈ l)
    (f : SyscallArgs → HookAnswer) (otherwise : HookAnswer) :
    tableAnswer (l.map fun a => (a, f a)) otherwise args = f args := by
  induction l with
  | nil => cases h
  | cons a l ih =>
    rw [List.map_cons, tableAnswer]
    split
    · next heq => rw [heq]
    · next hne => exact ih ((List.mem_cons.1 h).resolve_left hne)

/-- Settles O53: the table with one row for each tuple of words; its remaining answer is never
used. -/
theorem everyPureHookIsAHook : Obligations.EveryPureHookIsAHook := by
  intro f
  obtain ⟨l, hl⟩ := SyscallArgs.exists_complete_list
  refine ⟨.table (l.map fun a => (a, f a)) .continues, fun args => ?_⟩
  rw [hookAnswer, tableAnswer_map (hl args)]

end Sys2Proof.Machine

/-! PROOFS. The causes of a fatal error (60_exceptions.md R170 to R175). -/

namespace Sys2Proof

/-- The class of a word is read back from its record. -/
theorem eq_cls_of_recordOf {w : Word} {c : OpClass} {d : Decoded} (h : recordOf w c = d) :
    c = d.cls := by
  rw [← h, cls_recordOf]

/-- Everything the decoder rejects, by the word's own fields: an opcode outside the eight, or a
funct value that BRANCH, IMM, LOAD or SYSTEM does not implement (R171, R172). -/
theorem decode_error_fields {e : Encoding} {w : Word} {r : Reject} (h : decode e w = .error r) :
    (opcodeOf w ∉ e.opcodes ∧ r = .unimplementedOpcode (opcodeOf w)) ∨
    (opcodeOf w = e.opcBranch ∧ funct3Of w ≠ e.f3Beq ∧ funct3Of w ≠ e.f3Bne ∧
      r = .unimplementedFunct .branch (funct3Of w).toNat) ∨
    (opcodeOf w = e.opcImm ∧ funct3Of w ≠ e.f3Addi ∧ funct3Of w ≠ e.f3Slti ∧
      funct3Of w ≠ e.f3Sltiu ∧ r = .unimplementedFunct .imm (funct3Of w).toNat) ∨
    (opcodeOf w = e.opcLoad ∧ funct3Of w ≠ e.f3Lw ∧
      r = .unimplementedFunct .load (funct3Of w).toNat) ∨
    (opcodeOf w = e.opcSystem ∧ immIOf w ≠ 0 ∧
      r = .unimplementedFunct .system (immIOf w).toNat) := by
  obtain hunknown | ⟨c, hc, hs⟩ := decode_error_cases h
  · exact .inl hunknown
  · right
    have hop := (opcode_of_classOf hc).symm
    obtain ⟨_, _, _, _, hd, hcause⟩ | ⟨_, _, _, _, hd, hcause⟩ | ⟨_, _, _, _, hd, hcause⟩ |
      ⟨_, hd, hcause⟩ := select_error_cases hs <;> cases eq_cls_of_recordOf hd <;> cases hd
    · exact .inl ⟨hop, hcause⟩
    · exact .inr (.inl ⟨hop, hcause⟩)
    · exact .inr (.inr (.inl ⟨hop, hcause⟩))
    · exact .inr (.inr (.inr ⟨hop, hcause⟩))

end Sys2Proof

namespace Sys2Proof.Machine

theorem not_inMemory_of_inBounds_eq_false {s : State} {a : Word} (h : inBounds s.cfg a = false) :
    ¬ InMemory s a := by
  rw [inMemory_iff_inBounds, h]
  exact Bool.false_ne_true

/-- A fetch fails only by the bounds check at the pc (R101, R173). -/
theorem fetch_error_cases {s : State} {e : Fault} (h : fetch s = .error e) :
    ¬ InMemory s s.pc ∧ e = .memoryBoundsError s.pc := by
  obtain ⟨-, hf⟩ | ⟨hout, hf⟩ := fetch_cases s <;> cases hf.symm.trans h
  exact ⟨not_inMemory_of_inBounds_eq_false hout, rfl⟩

/-- A word that decodes to JALR has its opcode. -/
theorem opcodeOf_of_decode_jalr {e : Encoding} {w : Word} {rd : RegIdx} {f3 : Funct3}
    {rs1 : RegIdx} {off : Imm12} (h : decode e w = .ok (.jalr rd f3 rs1 off)) :
    opcodeOf w = e.opcJalr := by
  have henc : encode e (.jalr rd f3 rs1 off) = w := encode_of_decode h
  rw [← henc, opcodeOf_encode]
  rfl

/-- Settles O31: the step failed in its fetch, its decode or its execution, and each of these has
its causes. -/
theorem fatalErrorsAreTheTaxonomys : Obligations.FatalErrorsAreTheTaxonomys := by
  intro s e h
  obtain ⟨hr, hf | ⟨w, hf, hw, hcause⟩⟩ := step_fault_cases h
  · exact .inl (fetch_error_cases hf)
  · refine .inr ⟨w, ⟨hr, hf, hw⟩, ?_⟩
    obtain ⟨r, hd, rfl⟩ | ⟨i, hd, he⟩ := hcause
    · obtain ⟨hop, rfl⟩ | ⟨hop, hbeq, hbne, rfl⟩ | ⟨hop, haddi, hslti, hsltiu, rfl⟩ |
        ⟨hop, hlw, rfl⟩ | ⟨hop, hecall, rfl⟩ := decode_error_fields hd
      · exact .inl ⟨hop, rfl⟩
      · exact .inr (.inl ⟨hop, hbeq, hbne, rfl⟩)
      · exact .inr (.inr (.inl ⟨hop, haddi, hslti, hsltiu, rfl⟩))
      · exact .inr (.inr (.inr (.inl ⟨hop, hlw, rfl⟩)))
      · exact .inr (.inr (.inr (.inr (.inl ⟨hop, hecall, rfl⟩))))
    · iterate 5 right
      obtain ⟨_, _, _, _, rfl, hm, rfl⟩ | ⟨rd, rs1, imm, rfl, hout, rfl⟩ | ⟨r, rfl, hk, rfl⟩ :=
        exec_fault_cases he
      · exact .inl ⟨opcodeOf_of_decode_jalr hd, hm, rfl⟩
      · rw [State.basePlusImm_eq] at hout ⊢
        exact .inr (.inl ⟨rd, rs1, imm, hd, not_inMemory_of_inBounds_eq_false hout, rfl⟩)
      · exact .inr (.inr ⟨hd, r, hk, rfl⟩)

end Sys2Proof.Machine

/-! PROOFS. The load of a word at the pc (70_reset_and_hazards.md R204, R206, log 20). -/

namespace Sys2Proof.Machine

theorem loadAtPc_of_inMemory {s : State} (h : InMemory s s.pc) (word : Word) :
    loadAtPc s word =
      { s with terminated := false, mem := s.mem.writeWord s.pc.toNat word } :=
  if_pos ((inMemory_iff_inBounds s s.pc).1 h)

/-- Without room at the pc the load moves the memory and goes on at an address with room in it. -/
theorem loadAtPc_of_not_inMemory {s : State} (h : ¬ InMemory s s.pc) (word : Word) :
    ∃ p : Word, p.toNat + 3 < 4294967296 ∧ loadAtPc s word =
      { s with
        pc := p
        mem := s.mem.writeWord p.toNat word
        terminated := false
        cfg := { s.cfg with memStart := 0, memSize := 4294967296 } } := by
  refine ⟨if s.pc.toNat + 3 < 4294967296 then s.pc else 0, ?_,
    if_neg (mt (inMemory_iff_inBounds s s.pc).2 h)⟩
  split
  · assumption
  · decide

/-- A state with a word written at its pc, in range, fetches that word (R43, R101). -/
theorem fetch_of_writeWord_at_pc {t : State} {m : Memory} (hm : m.wf) {word : Word}
    (hin : InMemory t t.pc) (ht : t.mem = m.writeWord t.pc.toNat word) : fetch t = .ok word := by
  rw [fetch, memRead_of_inMemory hin, ht, Memory.readWord_writeWord_same hm]

/-- Settles O54: with room at the pc the load is a word write there; without it the load makes the
room first. -/
theorem loadedWordIsFetchedNext : Obligations.LoadedWordIsFetchedNext := by
  intro s nbits w hm
  rw [State.withFetchWord]
  by_cases hin : InMemory s s.pc
  · rw [loadAtPc_of_inMemory hin]
    exact ⟨rfl, fetch_of_writeWord_at_pc hm hin rfl, rfl, fun _ => ⟨rfl, rfl⟩⟩
  · obtain ⟨p, hroom, hload⟩ := loadAtPc_of_not_inMemory hin (BitVec.ofNat 32 (w % 2 ^ nbits))
    rw [hload]
    refine ⟨rfl, fetch_of_writeWord_at_pc hm ⟨Nat.zero_le _, ?_⟩ rfl, rfl, fun h => absurd h hin⟩
    simpa using hroom

end Sys2Proof.Machine

/-! PROOFS. The driver's loop against counted runs of steps (41_cycle.md R110,
70_reset_and_hazards.md R209). -/

namespace Sys2Proof.Machine

/-- The loop spends one cycle on each step, so a run of steps is a shorter loop from its end. -/
theorem ReachesIn.drive_add {k : Nat} {s t : State} (h : ReachesIn k s t) (m : Nat) :
    drive (k + m) s = drive m t := by
  induction h with
  | zero s => rw [Nat.zero_add]
  | succ first _ ih => rw [Nat.succ_add, drive_of_step_next _ first, ih]

/-- Everything the loop can end in, counted in steps: the end of the run, the state before a fatal
error, or the state after all `n` steps. -/
theorem drive_cases (n : Nat) (s : State) : ∃ k t, ReachesIn k s t ∧
    ((t.terminated = true ∧ k ≤ n ∧ drive n s = .normal t) ∨
      (∃ e, step t = .fault e ∧ k < n ∧ drive n s = .abnormal e t) ∨
      (t.terminated = false ∧ k = n ∧ drive n s = .running t)) := by
  induction n generalizing s with
  | zero =>
    refine ⟨0, s, .zero s, ?_⟩
    cases hr : s.terminated with
    | true => exact .inl ⟨rfl, le_rfl, drive_of_terminated 0 hr⟩
    | false => exact .inr (.inr ⟨rfl, rfl, drive_zero_of_running hr⟩)
  | succ n ih =>
    cases hr : s.terminated with
    | true => exact ⟨0, s, .zero s, .inl ⟨hr, Nat.zero_le _, drive_of_terminated _ hr⟩⟩
    | false =>
      obtain ⟨u, hu⟩ | ⟨e, he⟩ := step_cases_of_running hr
      · obtain ⟨k, t, hk, hend⟩ := ih u
        refine ⟨k + 1, t, .succ hu hk, ?_⟩
        simpa only [drive_of_step_next n hu, Nat.add_le_add_iff_right, Nat.add_lt_add_iff_right,
          Nat.add_right_cancel_iff] using hend
      · exact ⟨0, s, .zero s, .inr (.inl ⟨e, he, Nat.succ_pos n, drive_of_step_fault n he⟩)⟩

/-- Settles O55: the loop's cases, and conversely the loop from the end of the given run. -/
theorem runsEndInExactlyTheTwoWays : Obligations.RunsEndInExactlyTheTwoWays := by
  refine fun n s => ⟨?cases, fun k t hk hrun ht => ?normal, fun k t e hk hrun he => ?abnormal⟩
  case cases =>
    obtain ⟨k, t, hrun, ⟨ht, hk, hd⟩ | ⟨e, he, hk, hd⟩ | ⟨ht, rfl, hd⟩⟩ :=
      drive_cases n s <;> rw [hd]
    · exact ⟨ht, k, hk, hrun⟩
    · exact ⟨running_of_step_fault he, he, k, hk, hrun⟩
    · exact ⟨ht, hrun⟩
  case normal =>
    obtain ⟨m, rfl⟩ := Nat.exists_eq_add_of_le hk
    rw [hrun.drive_add, drive_of_terminated m ht]
  case abnormal =>
    obtain ⟨m, rfl⟩ := Nat.exists_eq_add_of_lt hk
    rw [Nat.add_assoc, hrun.drive_add, drive_of_step_fault m he]

end Sys2Proof.Machine
